-- ==== Sys2Proof/Word.lean ====
section
/-! DEFINITION. The fixed-width words of the host port and of the command interface. -/

namespace Sys2Proof

/-- One 64-bit word: the unit of a host transaction and of an operand (00_scope.md R5, 20_memory.md R51). -/
abbrev Word := BitVec 64

/-- One command word `c[31:0]` (30_encoding.md R70). -/
abbrev CmdWord := BitVec 32

/-- A byte offset in the 4096-byte host port window (20_memory.md R51). -/
abbrev Offset := BitVec 12

/-- One byte lane of a 64-bit transaction (20_memory.md R57). -/
abbrev Byte := BitVec 8

/-- The index of an operand register, `x[0]` to `x[7]` (30_encoding.md R72). -/
abbrev Reg := Fin 8

end Sys2Proof
end

