-- ==== Sys2Proof/Syntax.lean ====
section
/-! DEFINITION. The commands: one constructor for each row of spec/opcode_table.json (30_encoding.md R75), the fields in the
assembler's order (R79), the signedness bit `S` first (R71); and the three errors a command word can raise. -/

namespace Sys2Proof

/-- The 22 commands of 30_encoding.md R75. `S` is present in every format (R71). -/
inductive Instr where
  | mov (S : Bool) (rd rs1 : Reg)
  | ldi (S : Bool) (rd : Reg) (imm : BitVec 16)
  | add (S : Bool) (rd rs1 rs2 : Reg)
  | sub (S : Bool) (rd rs1 rs2 : Reg)
  | neg (S : Bool) (rd rs1 : Reg)
  | mul (S : Bool) (rd rs1 rs2 : Reg)
  | mulfw (S : Bool) (rd rd2 rs1 rs2 : Reg)
  | div (S : Bool) (rd rs1 rs2 : Reg)
  | rem (S : Bool) (rd rs1 rs2 : Reg)
  | divrem (S : Bool) (rd rd2 rs1 rs2 : Reg)
  | divfw (S : Bool) (rd rd2 rs1 rs2 rs3 : Reg)
  | not (S : Bool) (rd rs1 : Reg)
  | and (S : Bool) (rd rs1 rs2 : Reg)
  | or (S : Bool) (rd rs1 rs2 : Reg)
  | xor (S : Bool) (rd rs1 rs2 : Reg)
  | shl (S : Bool) (rd rs1 rs2 : Reg)
  | shr (S : Bool) (rd rs1 rs2 : Reg)
  | bswap (S : Bool) (rd rs1 : Reg)
  | cmp (S : Bool) (rd rs1 rs2 : Reg)
  | isz (S : Bool) (rd rs1 : Reg)
  | isneg (S : Bool) (rd rs1 : Reg)
  | isodd (S : Bool) (rd rs1 : Reg)
  deriving DecidableEq, Repr

/-- The three command errors (60_exceptions.md R261). -/
inductive CommandError where
  /-- The opcode field names no command (R263). -/
  | illegalOpcode
  /-- A bit that must be zero is one (R264). -/
  | reservedField
  /-- A two-destination command names one register twice (R265). -/
  | destConflict
  deriving DecidableEq, Repr

end Sys2Proof
end

