-- ==== Sys2Proof/WellFormed.lean ====
section
/-! DEFINITION. Which commands have an encoding that decodes: every register index and every immediate is legal, and a
two-destination command names two registers (30_encoding.md R72, R78). -/

namespace Sys2Proof

/-- The check of 30_encoding.md R70 step 3. Every other field value is legal (R78), so it is the one check. -/
def WellFormed : Instr → Bool
  | .mov _ _ _ => true
  | .ldi _ _ _ => true
  | .add _ _ _ _ => true
  | .sub _ _ _ _ => true
  | .neg _ _ _ => true
  | .mul _ _ _ _ => true
  | .mulfw _ rd rd2 _ _ => rd ≠ rd2
  | .div _ _ _ _ => true
  | .rem _ _ _ _ => true
  | .divrem _ rd rd2 _ _ => rd ≠ rd2
  | .divfw _ rd rd2 _ _ _ => rd ≠ rd2
  | .not _ _ _ => true
  | .and _ _ _ _ => true
  | .or _ _ _ _ => true
  | .xor _ _ _ _ => true
  | .shl _ _ _ _ => true
  | .shr _ _ _ _ => true
  | .bswap _ _ _ => true
  | .cmp _ _ _ _ => true
  | .isz _ _ _ => true
  | .isneg _ _ _ => true
  | .isodd _ _ _ => true

end Sys2Proof
end

