-- ==== Sys2Proof/Decode.lean ====
section
/-! DEFINITION. The decoder of 30_encoding.md R70 to R78, total on every command word, and the encoder written from the
layouts of R73. -/

namespace Sys2Proof

/-- The five formats (30_encoding.md R73). -/
inductive Format where
  | r1 | r2 | r2d | r3d | i
  deriving DecidableEq, Repr

/-- The bits the format marks as zero (30_encoding.md R73, column "must be zero"). -/
def Format.mustBeZero : Format → CmdWord
  | .r1 => 0xFFFE3880#32
  | .r2 => 0xFFF03880#32
  | .r2d => 0xFFF00080#32
  | .r3d => 0xFF800080#32
  | .i => 0x0000F880#32

/-- The formats with two destinations (30_encoding.md R70 step 3). -/
def Format.twoDest : Format → Bool
  | .r1 => false
  | .r2 => false
  | .r2d => true
  | .r3d => true
  | .i => false

/-- The fields of a command word (30_encoding.md R71). -/
structure Fields where
  S : Bool
  rd : Reg
  rd2 : Reg
  rs1 : Reg
  rs2 : Reg
  rs3 : Reg
  imm : BitVec 16
  deriving DecidableEq, Repr

/-- The opcode field `c[5:0]` (30_encoding.md R71). -/
def opField (c : CmdWord) : BitVec 6 := c.extractLsb' 0 6

/-- The 3-bit register field whose lowest bit is `lo` (30_encoding.md R72). -/
def regField (lo : Nat) (c : CmdWord) : Reg := (c.extractLsb' lo 3).toFin

/-- All fields of a command word (30_encoding.md R71, R72, R74). -/
def fieldsOf (c : CmdWord) : Fields :=
  { S := c.getLsbD 6
    rd := regField 8 c
    rd2 := regField 11 c
    rs1 := regField 14 c
    rs2 := regField 17 c
    rs3 := regField 20 c
    imm := c.extractLsb' 16 16 }

/-- The opcode map (30_encoding.md R75): the format of an opcode and the command its fields name; `none` for the illegal
opcodes of R77. -/
def opcodeRow (op : BitVec 6) : Option (Format × (Fields → Instr)) :=
  match op.toNat with
  | 0x01 => some (.r1, fun f => .mov f.S f.rd f.rs1)
  | 0x02 => some (.i, fun f => .ldi f.S f.rd f.imm)
  | 0x08 => some (.r2, fun f => .add f.S f.rd f.rs1 f.rs2)
  | 0x09 => some (.r2, fun f => .sub f.S f.rd f.rs1 f.rs2)
  | 0x0A => some (.r1, fun f => .neg f.S f.rd f.rs1)
  | 0x10 => some (.r2, fun f => .mul f.S f.rd f.rs1 f.rs2)
  | 0x11 => some (.r2d, fun f => .mulfw f.S f.rd f.rd2 f.rs1 f.rs2)
  | 0x18 => some (.r2, fun f => .div f.S f.rd f.rs1 f.rs2)
  | 0x19 => some (.r2, fun f => .rem f.S f.rd f.rs1 f.rs2)
  | 0x1A => some (.r2d, fun f => .divrem f.S f.rd f.rd2 f.rs1 f.rs2)
  | 0x1B => some (.r3d, fun f => .divfw f.S f.rd f.rd2 f.rs1 f.rs2 f.rs3)
  | 0x20 => some (.r1, fun f => .not f.S f.rd f.rs1)
  | 0x21 => some (.r2, fun f => .and f.S f.rd f.rs1 f.rs2)
  | 0x22 => some (.r2, fun f => .or f.S f.rd f.rs1 f.rs2)
  | 0x23 => some (.r2, fun f => .xor f.S f.rd f.rs1 f.rs2)
  | 0x24 => some (.r2, fun f => .shl f.S f.rd f.rs1 f.rs2)
  | 0x25 => some (.r2, fun f => .shr f.S f.rd f.rs1 f.rs2)
  | 0x26 => some (.r1, fun f => .bswap f.S f.rd f.rs1)
  | 0x28 => some (.r2, fun f => .cmp f.S f.rd f.rs1 f.rs2)
  | 0x29 => some (.r1, fun f => .isz f.S f.rd f.rs1)
  | 0x2A => some (.r1, fun f => .isneg f.S f.rd f.rs1)
  | 0x2B => some (.r1, fun f => .isodd f.S f.rd f.rs1)
  | _ => none

/-- Decoding, in the order of 30_encoding.md R70: the first check that fails decides the error (60_exceptions.md R267). -/
def decode (c : CmdWord) : Except CommandError Instr :=
  match opcodeRow (opField c) with
  | none => .error .illegalOpcode
  | some (fmt, command) =>
    if c &&& fmt.mustBeZero ≠ 0#32 then .error .reservedField
    else if fmt.twoDest && decide (regField 8 c = regField 11 c) then .error .destConflict
    else .ok (command (fieldsOf c))

/-- A register index as its 3-bit field (30_encoding.md R72). -/
def regBits (r : Reg) : BitVec 3 := BitVec.ofFin r

/-- The layout of the register formats R1, R2, R2D and R3D (30_encoding.md R73), an unused field zero:
`000000000 ccc bbb aaa eee ddd 0 s oooooo`. -/
def packR (rs3 rs2 rs1 rd2 rd : Reg) (S : Bool) (op : BitVec 6) : CmdWord :=
  0#9 ++ regBits rs3 ++ regBits rs2 ++ regBits rs1 ++ regBits rd2 ++ regBits rd ++ 0#1 ++ BitVec.ofBool S ++ op

/-- The layout of format I (30_encoding.md R73): `iiiiiiiiiiiiiiii 00000 ddd 0 s oooooo`. -/
def packI (imm : BitVec 16) (rd : Reg) (S : Bool) (op : BitVec 6) : CmdWord :=
  imm ++ 0#5 ++ regBits rd ++ 0#1 ++ BitVec.ofBool S ++ op

/-- The command word of a command (30_encoding.md R73, R75). -/
def encode : Instr → CmdWord
  | .mov S rd rs1 => packR 0 0 rs1 0 rd S 0x01#6
  | .ldi S rd imm => packI imm rd S 0x02#6
  | .add S rd rs1 rs2 => packR 0 rs2 rs1 0 rd S 0x08#6
  | .sub S rd rs1 rs2 => packR 0 rs2 rs1 0 rd S 0x09#6
  | .neg S rd rs1 => packR 0 0 rs1 0 rd S 0x0A#6
  | .mul S rd rs1 rs2 => packR 0 rs2 rs1 0 rd S 0x10#6
  | .mulfw S rd rd2 rs1 rs2 => packR 0 rs2 rs1 rd2 rd S 0x11#6
  | .div S rd rs1 rs2 => packR 0 rs2 rs1 0 rd S 0x18#6
  | .rem S rd rs1 rs2 => packR 0 rs2 rs1 0 rd S 0x19#6
  | .divrem S rd rd2 rs1 rs2 => packR 0 rs2 rs1 rd2 rd S 0x1A#6
  | .divfw S rd rd2 rs1 rs2 rs3 => packR rs3 rs2 rs1 rd2 rd S 0x1B#6
  | .not S rd rs1 => packR 0 0 rs1 0 rd S 0x20#6
  | .and S rd rs1 rs2 => packR 0 rs2 rs1 0 rd S 0x21#6
  | .or S rd rs1 rs2 => packR 0 rs2 rs1 0 rd S 0x22#6
  | .xor S rd rs1 rs2 => packR 0 rs2 rs1 0 rd S 0x23#6
  | .shl S rd rs1 rs2 => packR 0 rs2 rs1 0 rd S 0x24#6
  | .shr S rd rs1 rs2 => packR 0 rs2 rs1 0 rd S 0x25#6
  | .bswap S rd rs1 => packR 0 0 rs1 0 rd S 0x26#6
  | .cmp S rd rs1 rs2 => packR 0 rs2 rs1 0 rd S 0x28#6
  | .isz S rd rs1 => packR 0 0 rs1 0 rd S 0x29#6
  | .isneg S rd rs1 => packR 0 0 rs1 0 rd S 0x2A#6
  | .isodd S rd rs1 => packR 0 0 rs1 0 rd S 0x2B#6

/-- The command word of a table row's `nbits` bits, every bit above them zero (one word, little-endian, 20_memory.md R57). -/
def tableWord (nbits w : Nat) : CmdWord := BitVec.ofNat 32 (w % 2 ^ nbits)

/-- The command the decoder reads from a table row's bits. -/
def decodeTableWord (nbits w : Nat) : Option Instr :=
  match decode (tableWord nbits w) with
  | .ok i => some i
  | .error _ => none

end Sys2Proof
end

