-- ==== Sys2Proof/Config.lean ====
section
/-! DEFINITION. What is fixed when the engine is built: the width parameter `N` and the constants (00_scope.md section 3,
10_state.md R33, R34). -/

namespace Sys2Proof

/-- The legal values of the parameter `N`, the number of words of an operand (00_scope.md R6). -/
inductive Width where
  | n2 | n3 | n4 | n6 | n8
  deriving DecidableEq, Repr

/-- `N` itself (00_scope.md R6). -/
def Width.words : Width → Nat
  | .n2 => 2
  | .n3 => 3
  | .n4 => 4
  | .n6 => 6
  | .n8 => 8

/-- `W = 64 * N`, the width of an operand in bits (00_scope.md R7). -/
abbrev Width.bits (n : Width) : Nat := 64 * n.words

/-- The width of an engine built with `n` words; any other value than the five is refused (00_scope.md R6,
93_implementation_defined.md I5). -/
def Width.ofNat? : Nat → Option Width
  | 2 => some .n2
  | 3 => some .n3
  | 4 => some .n4
  | 6 => some .n6
  | 8 => some .n8
  | _ => none

/-- `NREG`, the number of operand registers (00_scope.md R8). -/
def nreg : Nat := 8

/-- `WORD_BITS`, the width of a word (00_scope.md R5, 10_state.md R34). -/
def wordBits : Nat := 64

/-- `KARATSUBA_MIN_N` (00_scope.md R9): it selects a datapath only. -/
def karatsubaMinN : Nat := 6

/-- The size of the host port window in bytes (20_memory.md R51). -/
def windowBytes : Nat := 4096

/-- The width that `Machine.State.reset` is built with. DESIGN CHOICE (log 2): the spec leaves `N` a parameter; its worked
examples have `N = 3`. Every rule of the model is written for every width. -/
def builtWidth : Width := .n3

end Sys2Proof
end

