-- ==== Sys2Proof/Machine/State.lean ====
section
/-! DEFINITION. The architectural state of one engine (10_state.md R20), the host's transactions (20_memory.md R52), and the
reasons a step can stop. -/

namespace Sys2Proof.Machine

/-- A transaction of the host port (20_memory.md R52). `bits` is the access width; the only admitted one is 64 (R58). -/
inductive Txn where
  /-- `HostRead(offset)`. -/
  | read (bits : Nat) (offset : Offset)
  /-- `HostWrite(offset, data)`. -/
  | write (bits : Nat) (offset : Offset) (data : Word)
  deriving DecidableEq, Repr

/-- What the outside world does to the engine, in the order in which it takes effect (20_memory.md R62).
DESIGN CHOICE (log 1, log 4). -/
inductive HostInput where
  /-- A transaction at the host port. -/
  | txn (t : Txn)
  /-- The reset input is asserted (70_reset_and_hazards.md R290). `dropped` are the transactions it takes back: a CMD write
  whose command was running, then the transactions that command held; empty when the engine was idle. -/
  | reset (dropped : List Txn)
  deriving DecidableEq, Repr

/-- No fault stops the engine: every command completes or is captured as a command error, after which the engine goes on
(60_exceptions.md R260, R262; 70_reset_and_hazards.md R302). Log 8. -/
inductive Fault where
  deriving DecidableEq, Repr

/-- Why the model takes no step. -/
inductive Refusal where
  /-- An instruction that has no meaning yet; raised by a refused arm of `exec`, of which there is none. Safe. -/
  | notModelled (mnemonic : String)
  /-- A transaction whose width is not 64 bits, outside the contract (20_memory.md R58); raised by the host port. Safe. -/
  | accessWidth (bits : Nat)
  /-- A transaction with `offset[2:0]` not 0, outside the contract (20_memory.md R55); raised by the host port. Safe. -/
  | misaligned (offset : Offset)
  /-- A transaction at an unmapped offset, outside the contract (20_memory.md R55); raised by the host port. Safe. -/
  | unmapped (offset : Offset)
  deriving DecidableEq, Repr

/-- The state: the four pieces of 10_state.md R20, the instance parameter `N`, and the model's two lists that stand for the
host's side of the port. -/
structure State where
  /-- The instance parameter `N` (00_scope.md R6): a constant that no step changes (log 2). -/
  n : Width
  /-- The operand registers `x[0]` to `x[7]` (10_state.md R21). -/
  x : Vector (BitVec n.bits) 8
  /-- The overflow flag `OV` (10_state.md R30). -/
  ov : Bool
  /-- The error code `ERR` (10_state.md R31). -/
  err : BitVec 4
  /-- The captured command word `ERRCMD` (10_state.md R32). -/
  errcmd : CmdWord
  /-- The model's own: what the host does next, in issue order (log 1). -/
  queue : List HostInput
  /-- The model's own: the data returned to the host's reads, oldest first (log 3). -/
  replies : List Word
  deriving DecidableEq, Repr

/-- The operand width `W` of the engine (00_scope.md R7). -/
abbrev State.W (s : State) : Nat := s.n.bits

/-- The reset values of 10_state.md R38, for an engine built with width `n`. -/
def State.resetAt (n : Width) : State :=
  { n := n
    x := Vector.replicate 8 0#n.bits
    ov := false
    err := 0#4
    errcmd := 0#32
    queue := []
    replies := [] }

/-- The machine right after reset (10_state.md R38), for the built width (log 2). -/
def State.reset : State := State.resetAt builtWidth

/-- A reset engine with `N = k`, refused for an illegal `k` (00_scope.md R6). -/
def State.build (k : Nat) : Option State := (Width.ofNat? k).map State.resetAt

end Sys2Proof.Machine
end

