-- ==== Sys2Proof/Machine/Operands.lean ====
section
/-! DEFINITION. The readings of a bit pattern, the integer operators of the rules, and the operand forms of a command
(00_scope.md section 4, 10_state.md section 2, 45_bitwise_shift.md R215). -/

namespace Sys2Proof.Machine

/-! ## Readings -/

/-- `uval(v)`, the unsigned reading (00_scope.md R11). -/
def uval {w : Nat} (v : BitVec w) : Nat := v.toNat

/-- `sval(v) = uval(v) - v[W-1] * 2^W`, the two's-complement reading (00_scope.md R11). -/
def sval {w : Nat} (v : BitVec w) : Int := (uval v : Int) - ((v.getLsbD (w - 1)).toNat * 2 ^ w : Nat)

/-- `val_S(v)` (00_scope.md R11). -/
def val (S : Bool) {w : Nat} (v : BitVec w) : Int := if S then sval v else uval v

/-- `bits_k(n)`, the `k`-bit pattern congruent to `n` modulo `2^k` (00_scope.md R12). -/
def bits (k : Nat) (n : Int) : BitVec k := BitVec.ofInt k n

/-- `min_S` (00_scope.md R12): the pattern with only bit `W-1` set for `S = 1`, zero for `S = 0`. -/
def minS (S : Bool) (w : Nat) : BitVec w := if S then bits w (2 ^ (w - 1) : Nat) else bits w 0

/-- `max_S` (00_scope.md R12). -/
def maxS (S : Bool) (w : Nat) : BitVec w := if S then bits w ((2 ^ (w - 1) : Nat) - 1) else bits w (-1)

/-- `sext_k(v)` (00_scope.md R14). -/
def sext (k : Nat) {w : Nat} (v : BitVec w) : BitVec k := v.signExtend k

/-- `zext_k(v)` (00_scope.md R14). -/
def zext (k : Nat) {w : Nat} (v : BitVec w) : BitVec k := v.setWidth k

/-! ## Integer operators (00_scope.md R13) -/

/-- `tdiv(a, b)`, the quotient rounded toward zero (00_scope.md R13). -/
def tdiv (a b : Int) : Int := a.sign * b.sign * (a.natAbs / b.natAbs : Nat)

/-- `trem(a, b) = a - b * tdiv(a, b)` (00_scope.md R13). -/
def trem (a b : Int) : Int := a - b * tdiv a b

/-- `emod(a, b)` for `b > 0`, in `[0, b)` for a negative `a` too (00_scope.md R13). -/
def emod (a : Int) (b : Nat) : Nat := (a % (b : Int)).toNat

/-- `floor(n / d)` for a positive `d` (00_scope.md R13). -/
def floorDiv (n : Int) (d : Nat) : Int := n / (d : Int)

/-! ## Words and limbs -/

/-- `word(v, j) = v[64*j + 63 : 64*j]` (00_scope.md R10). -/
def wordOf {w : Nat} (v : BitVec w) (j : Nat) : Word := v.extractLsb' (64 * j) 64

/-- `v` with word `j` replaced by `d`, every other word unchanged (20_memory.md R54). -/
def withWord {w : Nat} (v : BitVec w) (j : Nat) (d : Word) : BitVec w :=
  (v &&& ~~~(zext w (BitVec.allOnes 64) <<< (64 * j))) ||| (zext w d <<< (64 * j))

/-- `L = ceil(N / 2)`, the words of the low limb (10_state.md R22). -/
def lowWords (n : Width) : Nat := (n.words + 1) / 2

/-- `floor(N / 2)`, the words of the high limb (10_state.md R22). -/
def highWords (n : Width) : Nat := n.words / 2

/-- `low(v)`, words `0` to `L - 1` (10_state.md R22). -/
def lowLimb {n : Width} (v : BitVec n.bits) : BitVec (64 * lowWords n) := v.extractLsb' 0 _

/-- `high(v)`, words `L` to `N - 1` (10_state.md R22). -/
def highLimb {n : Width} (v : BitVec n.bits) : BitVec (64 * highWords n) := v.extractLsb' (64 * lowWords n) _

/-! ## Operand forms of a command -/

/-- `x[r]`, the operand register as a bit pattern (00_scope.md R15, 10_state.md R21). -/
def State.reg (s : State) (r : Reg) : BitVec s.W := s.x[r.val]

/-- `uval(x[r])`. -/
def State.uval (s : State) (r : Reg) : Nat := Machine.uval (s.reg r)

/-- `sval(x[r])`. -/
def State.sval (s : State) (r : Reg) : Int := Machine.sval (s.reg r)

/-- `val_S(x[r])`: the signedness bit belongs to the command (10_state.md R23). -/
def State.val (s : State) (S : Bool) (r : Reg) : Int := Machine.val S (s.reg r)

/-- The immediate operand of LDI (30_encoding.md R74). -/
def immOperand (S : Bool) (w : Nat) (imm : BitVec 16) : BitVec w := if S then sext w imm else zext w imm

/-- The shift amount `k = emod(sval(x[rs2]), W)` (45_bitwise_shift.md R215). -/
def shiftAmount {w : Nat} (amount : BitVec w) : Nat := emod (sval amount) w

end Sys2Proof.Machine
end

