-- ==== Sys2Proof/Machine/Flags.lean ====
section
/-! DEFINITION. The overflow flag: when a result fits, and the flag of each reporting command (00_scope.md R12,
10_state.md R30). -/

namespace Sys2Proof.Machine

/-- `fits_S(n)` (00_scope.md R12). -/
def fits (S : Bool) (w : Nat) (n : Int) : Bool :=
  if S then decide (-((2 ^ (w - 1) : Nat) : Int) ≤ n ∧ n < ((2 ^ (w - 1) : Nat) : Int))
  else decide (0 ≤ n ∧ n < ((2 ^ w : Nat) : Int))

/-- `not fits_S(n)`: the flag of ADD, SUB, NEG and MUL for the exact result `n` (42_addsub.md R120 to R122,
43_multiply.md R140). -/
def overflow (S : Bool) (w : Nat) (n : Int) : Bool := !fits S w n

/-- The flag a command that does not report writes (10_state.md R30). -/
def noOverflow : Bool := false

/-- The row of 44_divide.md R181 in which a division falls; the tests run in the order of the table. -/
inductive DivCase where
  /-- `D = 0`. -/
  | zeroDivisor
  /-- `S = 1`, `a = min_S`, `D = -1`. -/
  | signedOverflow
  /-- Otherwise. -/
  | regular
  deriving DecidableEq, Repr

/-- The case of a division (44_divide.md R181). -/
def divCase (S : Bool) {w : Nat} (a b : BitVec w) : DivCase :=
  if val S b = 0 then .zeroDivisor
  else if S = true ∧ a = minS S w ∧ val S b = -1 then .signedOverflow
  else .regular

/-- The flag `V` of DIV, REM and DIVREM (44_divide.md R181). -/
def divOverflow : DivCase → Bool
  | .zeroDivisor => true
  | .signedOverflow => true
  | .regular => false

/-- The flag of DIVFW: 1 for a zero divisor, else 0 (44_divide.md R173). -/
def divfwOverflow {w : Nat} (S : Bool) (v : BitVec w) : Bool := decide (val S v = 0)

end Sys2Proof.Machine
end

