-- ==== Sys2Proof/Machine/Ops.lean ====
section
/-! DEFINITION. The shared operations over the state: writing registers and the flag, completing a command, capturing a
command error and clearing it. -/

namespace Sys2Proof.Machine

/-- What a command or a step answers. -/
abbrev Result := Host.Outcome State Fault Refusal

/-- `x[r] <- v` (00_scope.md R15). -/
def State.write (s : State) (r : Reg) (v : BitVec s.W) : State := { s with x := s.x.set r.val v }

/-- `OV <- b` (00_scope.md R15). -/
def State.setOv (s : State) (b : Bool) : State := { s with ov := b }

/-- `x[r][64*j+63 : 64*j] <- data`, a host word write (20_memory.md R54). -/
def State.writeWord (s : State) (r : Reg) (j : Nat) (d : Word) : State := s.write r (withWord (s.reg r) j d)

/-- A command with one destination completes: `x[rd] <- v; OV <- ov` (10_state.md R24, R30). -/
def complete (s : State) (rd : Reg) (v : BitVec s.W) (ov : Bool) : Result := .next ((s.write rd v).setOv ov)

/-- A command with two destinations completes: `x[rd] <- v; x[rd2] <- v2; OV <- ov` (10_state.md R24). -/
def complete2 (s : State) (rd : Reg) (v : BitVec s.W) (rd2 : Reg) (v2 : BitVec s.W) (ov : Bool) : Result :=
  .next (((s.write rd v).write rd2 v2).setOv ov)

/-- The codes of the command errors (10_state.md R31, 60_exceptions.md R261). -/
def errorCode : CommandError → BitVec 4
  | .illegalOpcode => 1#4
  | .reservedField => 2#4
  | .destConflict => 3#4

/-- Error capture, the engine's trap entry: `ERR <- code; ERRCMD <- c`, nothing else (60_exceptions.md R262). -/
def captureError (e : CommandError) (c : CmdWord) (s : State) : State := { s with err := errorCode e, errcmd := c }

/-- The clear by a host write to STATUS, the engine's trap return: `OV <- 0; ERR <- 0`, ERRCMD kept (10_state.md R36,
60_exceptions.md R268). -/
def clearStatus (s : State) : State := { s with ov := false, err := 0#4 }

/-- A two-destination command with `rd = rd2` is captured as DEST_CONFLICT (30_encoding.md R70 step 3); otherwise it runs.
The decoder stops such a word first, so the first branch is reached by no step (log 6). -/
def guardDest (i : Instr) (rd rd2 : Reg) (s : State) (run : Result) : Result :=
  if rd = rd2 then .next (captureError .destConflict (encode i) s) else run

/-- The reset input: every piece of state at its reset value (70_reset_and_hazards.md R290). The host keeps the data it has
read and its coming transactions (log 4). -/
def resetEngine (s : State) : State := { State.resetAt s.n with queue := s.queue, replies := s.replies }

end Sys2Proof.Machine
end

