-- ==== Sys2Proof/Machine/AddSub.lean ====
section
/-! DEFINITION. ADD, SUB and NEG (42_addsub.md). -/

namespace Sys2Proof.Machine

/-- ADD: add with overflow report (42_addsub.md R120). -/
def execAdd (S : Bool) (rd rs1 rs2 : Reg) (s : State) : Result :=
  complete s rd (bits s.W (s.val S rs1 + s.val S rs2)) (overflow S s.W (s.val S rs1 + s.val S rs2))

/-- SUB: subtract with overflow report (42_addsub.md R121). -/
def execSub (S : Bool) (rd rs1 rs2 : Reg) (s : State) : Result :=
  complete s rd (bits s.W (s.val S rs1 - s.val S rs2)) (overflow S s.W (s.val S rs1 - s.val S rs2))

/-- NEG: negate with overflow report (42_addsub.md R122). -/
def execNeg (S : Bool) (rd rs1 : Reg) (s : State) : Result :=
  complete s rd (bits s.W (0 - s.val S rs1)) (overflow S s.W (0 - s.val S rs1))

end Sys2Proof.Machine
end

