-- ==== Sys2Proof/Machine/Bitwise.lean ====
section
/-! DEFINITION. NOT, AND, OR, XOR, SHL, SHR and BSWAP (45_bitwise_shift.md). -/

namespace Sys2Proof.Machine

/-- NOT: bitwise complement (45_bitwise_shift.md R210). `S` is ignored (30_encoding.md R76). -/
def execNot (_S : Bool) (rd rs1 : Reg) (s : State) : Result := complete s rd (~~~(s.reg rs1)) noOverflow

/-- AND: bitwise conjunction (45_bitwise_shift.md R211). `S` is ignored (30_encoding.md R76). -/
def execAnd (_S : Bool) (rd rs1 rs2 : Reg) (s : State) : Result := complete s rd (s.reg rs1 &&& s.reg rs2) noOverflow

/-- OR: bitwise disjunction (45_bitwise_shift.md R212). `S` is ignored (30_encoding.md R76). -/
def execOr (_S : Bool) (rd rs1 rs2 : Reg) (s : State) : Result := complete s rd (s.reg rs1 ||| s.reg rs2) noOverflow

/-- XOR: bitwise exclusive or (45_bitwise_shift.md R213). `S` is ignored (30_encoding.md R76). -/
def execXor (_S : Bool) (rd rs1 rs2 : Reg) (s : State) : Result := complete s rd (s.reg rs1 ^^^ s.reg rs2) noOverflow

/-- `bits(uval(a) * 2^k)` (45_bitwise_shift.md R214). -/
def shiftLeft {w : Nat} (a : BitVec w) (k : Nat) : BitVec w := bits w (uval a * 2 ^ k : Nat)

/-- `bits(floor(val_S(a) / 2^k))` (45_bitwise_shift.md R216). -/
def shiftRight (S : Bool) {w : Nat} (a : BitVec w) (k : Nat) : BitVec w := bits w (floorDiv (val S a) (2 ^ k))

/-- SHL: masking left shift (45_bitwise_shift.md R214). `S` is ignored (30_encoding.md R76). -/
def execShl (_S : Bool) (rd rs1 rs2 : Reg) (s : State) : Result :=
  complete s rd (shiftLeft (s.reg rs1) (shiftAmount (s.reg rs2))) noOverflow

/-- SHR: masking right shift, logical for `S = 0`, arithmetic for `S = 1` (45_bitwise_shift.md R216). -/
def execShr (S : Bool) (rd rs1 rs2 : Reg) (s : State) : Result :=
  complete s rd (shiftRight S (s.reg rs1) (shiftAmount (s.reg rs2))) noOverflow

/-- The number whose `k` bytes are the low `k` bytes of `v` in reverse order (45_bitwise_shift.md R220). -/
def reverseBytes : Nat → Nat → Nat
  | 0, _ => 0
  | k + 1, v => v % 256 * 256 ^ k + reverseBytes k (v / 256)

/-- The byte reversal of a value of `w` bits, `w` a multiple of 8 (45_bitwise_shift.md R220). -/
def byteSwap {w : Nat} (a : BitVec w) : BitVec w := bits w (reverseBytes (w / 8) (uval a))

/-- BSWAP: reverse the byte order (45_bitwise_shift.md R220). `S` is ignored (30_encoding.md R76). -/
def execBswap (_S : Bool) (rd rs1 : Reg) (s : State) : Result := complete s rd (byteSwap (s.reg rs1)) noOverflow

end Sys2Proof.Machine
end

