-- ==== Sys2Proof/Machine/Compare.lean ====
section
/-! DEFINITION. CMP, ISZ, ISNEG and ISODD (46_compare.md). -/

namespace Sys2Proof.Machine

/-- The answer of a test, `bits(1)` or `bits(0)` (46_compare.md R241 to R243). -/
def testResult (w : Nat) (b : Bool) : BitVec w := bits w b.toNat

/-- CMP: three-way compare, `bits(sign(val_S(a) - val_S(b)))` (46_compare.md R240). -/
def execCmp (S : Bool) (rd rs1 rs2 : Reg) (s : State) : Result :=
  complete s rd (bits s.W (s.val S rs1 - s.val S rs2).sign) noOverflow

/-- ISZ: zero test (46_compare.md R241). `S` is ignored (30_encoding.md R76). -/
def execIsz (_S : Bool) (rd rs1 : Reg) (s : State) : Result :=
  complete s rd (testResult s.W (decide (s.reg rs1 = 0#s.W))) noOverflow

/-- ISNEG: negative test (46_compare.md R242). -/
def execIsneg (S : Bool) (rd rs1 : Reg) (s : State) : Result :=
  complete s rd (testResult s.W (S && (s.reg rs1).getLsbD (s.W - 1))) noOverflow

/-- ISODD: odd test (46_compare.md R243). `S` is ignored (30_encoding.md R76). -/
def execIsodd (_S : Bool) (rd rs1 : Reg) (s : State) : Result :=
  complete s rd (testResult s.W ((s.reg rs1).getLsbD 0)) noOverflow

end Sys2Proof.Machine
end

