-- ==== Sys2Proof/Machine/Construction.lean ====
section
/-! DEFINITION. MOV and LDI (41_construction.md). -/

namespace Sys2Proof.Machine

/-- MOV: copy a register (41_construction.md R100). `S` is ignored (30_encoding.md R76). -/
def execMov (_S : Bool) (rd rs1 : Reg) (s : State) : Result := complete s rd (s.reg rs1) noOverflow

/-- LDI: load a 16-bit immediate, sign- or zero-extended (41_construction.md R101). -/
def execLdi (S : Bool) (rd : Reg) (imm : BitVec 16) (s : State) : Result :=
  complete s rd (immOperand S s.W imm) noOverflow

end Sys2Proof.Machine
end

