-- ==== Sys2Proof/Machine/Divide.lean ====
section
/-! DEFINITION. DIV, REM, DIVREM and DIVFW (44_divide.md). -/

namespace Sys2Proof.Machine

/-- The quotient `Q` of 44_divide.md R181. -/
def divQuotient (S : Bool) {w : Nat} (a b : BitVec w) : BitVec w :=
  match divCase S a b with
  | .zeroDivisor => a
  | .signedOverflow => minS S w
  | .regular => bits w (tdiv (val S a) (val S b))

/-- The remainder `R` of 44_divide.md R181. -/
def divRemainder (S : Bool) {w : Nat} (a b : BitVec w) : BitVec w :=
  match divCase S a b with
  | .zeroDivisor => a
  | .signedOverflow => 0#w
  | .regular => bits w (trem (val S a) (val S b))

/-- DIV: divide with overflow report (44_divide.md R170). -/
def execDiv (S : Bool) (rd rs1 rs2 : Reg) (s : State) : Result :=
  complete s rd (divQuotient S (s.reg rs1) (s.reg rs2)) (divOverflow (divCase S (s.reg rs1) (s.reg rs2)))

/-- REM: remainder with overflow report (44_divide.md R171). -/
def execRem (S : Bool) (rd rs1 rs2 : Reg) (s : State) : Result :=
  complete s rd (divRemainder S (s.reg rs1) (s.reg rs2)) (divOverflow (divCase S (s.reg rs1) (s.reg rs2)))

/-- DIVREM: quotient and remainder (44_divide.md R172). -/
def execDivrem (S : Bool) (rd rd2 rs1 rs2 : Reg) (s : State) : Result :=
  guardDest (.divrem S rd rd2 rs1 rs2) rd rd2 s
    (complete2 s rd (divQuotient S (s.reg rs1) (s.reg rs2)) rd2 (divRemainder S (s.reg rs1) (s.reg rs2))
      (divOverflow (divCase S (s.reg rs1) (s.reg rs2))))

/-- The `2W`-bit dividend `U = val_S(h) * 2^W + uval(l)` of DIVFW (44_divide.md R173). -/
def fullDividend (S : Bool) {w : Nat} (h l : BitVec w) : Int := val S h * ((2 ^ w : Nat) : Int) + (uval l : Int)

/-- The quotient of DIVFW: the dividend's low half for a zero divisor, else truncated to `W` bits (44_divide.md R173). -/
def divfwQuotient (S : Bool) {w : Nat} (v h l : BitVec w) : BitVec w :=
  if val S v = 0 then l else bits w (tdiv (fullDividend S h l) (val S v))

/-- The remainder of DIVFW (44_divide.md R173). -/
def divfwRemainder (S : Bool) {w : Nat} (v h l : BitVec w) : BitVec w :=
  if val S v = 0 then l else bits w (trem (fullDividend S h l) (val S v))

/-- DIVFW: full-width division; `rs1` is the divisor, `rs2` and `rs3` the dividend (44_divide.md R173). -/
def execDivfw (S : Bool) (rd rd2 rs1 rs2 rs3 : Reg) (s : State) : Result :=
  guardDest (.divfw S rd rd2 rs1 rs2 rs3) rd rd2 s
    (complete2 s rd (divfwQuotient S (s.reg rs1) (s.reg rs2) (s.reg rs3))
      rd2 (divfwRemainder S (s.reg rs1) (s.reg rs2) (s.reg rs3)) (divfwOverflow S (s.reg rs1)))

end Sys2Proof.Machine
end

