-- ==== Sys2Proof/Machine/Multiply.lean ====
section
/-! DEFINITION. MUL and MULFW (43_multiply.md). -/

namespace Sys2Proof.Machine

/-- MUL: multiply with overflow report (43_multiply.md R140). -/
def execMul (S : Bool) (rd rs1 rs2 : Reg) (s : State) : Result :=
  complete s rd (bits s.W (s.val S rs1 * s.val S rs2)) (overflow S s.W (s.val S rs1 * s.val S rs2))

/-- The high half of a full-width product, `bits_W(floor(p / 2^W))` (43_multiply.md R141). -/
def productHigh (w : Nat) (p : Int) : BitVec w := bits w (floorDiv p (2 ^ w))

/-- The low half of a full-width product, `bits_W(p mod 2^W)` (43_multiply.md R141). -/
def productLow (w : Nat) (p : Int) : BitVec w := bits w (emod p (2 ^ w))

/-- MULFW: full-width multiply (43_multiply.md R141). -/
def execMulfw (S : Bool) (rd rd2 rs1 rs2 : Reg) (s : State) : Result :=
  guardDest (.mulfw S rd rd2 rs1 rs2) rd rd2 s
    (complete2 s rd (productHigh s.W (s.val S rs1 * s.val S rs2)) rd2 (productLow s.W (s.val S rs1 * s.val S rs2)) noOverflow)

end Sys2Proof.Machine
end

