-- ==== Sys2Proof/Machine/Dispatch.lean ====
section
/-! DEFINITION. The dispatch: one arm for each command of 30_encoding.md R75. It is step 4 of R70: the command has decoded and
no error was pending (log 6). -/

namespace Sys2Proof.Machine

def exec (i : Instr) (s : State) : Host.Outcome State Fault Refusal :=
  match i with
  | .mov S rd rs1 => Sys2Proof.Machine.execMov S rd rs1 s
  | .ldi S rd imm => Sys2Proof.Machine.execLdi S rd imm s
  | .add S rd rs1 rs2 => Sys2Proof.Machine.execAdd S rd rs1 rs2 s
  | .sub S rd rs1 rs2 => Sys2Proof.Machine.execSub S rd rs1 rs2 s
  | .neg S rd rs1 => Sys2Proof.Machine.execNeg S rd rs1 s
  | .mul S rd rs1 rs2 => Sys2Proof.Machine.execMul S rd rs1 rs2 s
  | .mulfw S rd rd2 rs1 rs2 => Sys2Proof.Machine.execMulfw S rd rd2 rs1 rs2 s
  | .div S rd rs1 rs2 => Sys2Proof.Machine.execDiv S rd rs1 rs2 s
  | .rem S rd rs1 rs2 => Sys2Proof.Machine.execRem S rd rs1 rs2 s
  | .divrem S rd rd2 rs1 rs2 => Sys2Proof.Machine.execDivrem S rd rd2 rs1 rs2 s
  | .divfw S rd rd2 rs1 rs2 rs3 => Sys2Proof.Machine.execDivfw S rd rd2 rs1 rs2 rs3 s
  | .not S rd rs1 => Sys2Proof.Machine.execNot S rd rs1 s
  | .and S rd rs1 rs2 => Sys2Proof.Machine.execAnd S rd rs1 rs2 s
  | .or S rd rs1 rs2 => Sys2Proof.Machine.execOr S rd rs1 rs2 s
  | .xor S rd rs1 rs2 => Sys2Proof.Machine.execXor S rd rs1 rs2 s
  | .shl S rd rs1 rs2 => Sys2Proof.Machine.execShl S rd rs1 rs2 s
  | .shr S rd rs1 rs2 => Sys2Proof.Machine.execShr S rd rs1 rs2 s
  | .bswap S rd rs1 => Sys2Proof.Machine.execBswap S rd rs1 s
  | .cmp S rd rs1 rs2 => Sys2Proof.Machine.execCmp S rd rs1 rs2 s
  | .isz S rd rs1 => Sys2Proof.Machine.execIsz S rd rs1 s
  | .isneg S rd rs1 => Sys2Proof.Machine.execIsneg S rd rs1 s
  | .isodd S rd rs1 => Sys2Proof.Machine.execIsodd S rd rs1 s

end Sys2Proof.Machine
end

