-- ==== Sys2Proof/Machine/Port.lean ====
section
/-! DEFINITION. The host port: the register map, reads and writes, and running the command of a CMD write
(20_memory.md, 10_state.md section 4, 60_exceptions.md). -/

namespace Sys2Proof.Machine

/-! ## The register map (20_memory.md R53) -/

/-- The offset of ID. -/
def offId : Offset := 0x000#12
/-- The offset of CONFIG. -/
def offConfig : Offset := 0x008#12
/-- The offset of STATUS. -/
def offStatus : Offset := 0x010#12
/-- The offset of ERRCMD. -/
def offErrcmd : Offset := 0x018#12
/-- The offset of CMD. -/
def offCmd : Offset := 0x020#12
/-- The offset of word `j` of `x[r]`: `0x100 + 0x40*r + 8*j` (20_memory.md R54). -/
def offWord (r : Reg) (j : Nat) : Offset := BitVec.ofNat 12 (0x100 + 0x40 * r.val + 8 * j)

/-- What a mapped offset names. -/
inductive PortReg where
  | id | config | status | errcmd | cmd
  | operand (r : Reg) (j : Nat)
  deriving DecidableEq, Repr

/-- The map of 20_memory.md R53, for an aligned offset; `none` where it is unmapped. -/
def portReg (n : Width) (off : Offset) : Option PortReg :=
  if off = offId then some .id
  else if off = offConfig then some .config
  else if off = offStatus then some .status
  else if off = offErrcmd then some .errcmd
  else if off = offCmd then some .cmd
  else
    let slot := off.toNat / 0x40
    let j := off.toNat % 0x40 / 8
    if h : 4 ≤ slot ∧ slot < 12 then
      if j < n.words then some (.operand ⟨slot - 4, by omega⟩ j) else none
    else none

/-! ## The register values (10_state.md section 4) -/

/-- ID (10_state.md R33). -/
def idValue : Word := 0x0000000144574345#64

/-- CONFIG (10_state.md R34): N, NREG, WORD_BITS and KARATSUBA_MIN_N in the four low bytes. -/
def configValue (n : Width) : Word :=
  0#32 ++ BitVec.ofNat 8 karatsubaMinN ++ BitVec.ofNat 8 wordBits ++ BitVec.ofNat 8 nreg ++ BitVec.ofNat 8 n.words

/-- STATUS: `ERR` in bits 7:4, `OV` in bit 0, every other bit 0 (10_state.md R36; log 7). -/
def statusValue (s : State) : Word := 0#56 ++ s.err ++ 0#3 ++ BitVec.ofBool s.ov

/-- ERRCMD: the captured word in bits 31:0 (10_state.md R32). -/
def errcmdValue (s : State) : Word := zext 64 s.errcmd

/-- The data of a read; CMD reads 0 (10_state.md R35). -/
def readPort (s : State) : PortReg → Word
  | .id => idValue
  | .config => configValue s.n
  | .status => statusValue s
  | .errcmd => errcmdValue s
  | .cmd => 0#64
  | .operand r j => wordOf (s.reg r) j

/-! ## A CMD write -/

/-- The command word of a CMD write, `data[31:0]` (10_state.md R35). -/
def commandWord (data : Word) : CmdWord := data.extractLsb' 0 32

/-- Run the command word `c`: discarded while `ERR` is not 0 (60_exceptions.md R266), else decoded (30_encoding.md R70), and
either captured as an error (60_exceptions.md R262) or run. -/
def runCommand (c : CmdWord) (s : State) : Result :=
  if s.err ≠ 0#4 then .next s
  else
    match decode c with
    | .error e => .next (captureError e c s)
    | .ok i => exec i s

/-- The effect of a write; ID, CONFIG and ERRCMD ignore it (10_state.md R32 to R36). -/
def writePort (p : PortReg) (data : Word) (s : State) : Result :=
  match p with
  | .id => .next s
  | .config => .next s
  | .status => .next (clearStatus s)
  | .errcmd => .next s
  | .cmd => runCommand (commandWord data) s
  | .operand r j => .next (s.writeWord r j data)

/-! ## Transactions -/

/-- A transaction is admitted only when it is 64 bits wide, `offset[2:0] = 0` and the offset is mapped (20_memory.md R52,
R58); otherwise it is refused (R55). The order of the three tests only chooses the refusal's name (log 9). -/
def admitTxn (n : Width) (width : Nat) (off : Offset) (run : PortReg → Result) : Result :=
  if width ≠ 64 then .refused (.accessWidth width)
  else if off.extractLsb' 0 3 ≠ 0#3 then .refused (.misaligned off)
  else
    match portReg n off with
    | none => .refused (.unmapped off)
    | some p => run p

/-- One host transaction (20_memory.md R52). A read changes nothing in the engine (R59); its data goes to the host. -/
def transact (t : Txn) (s : State) : Result :=
  match t with
  | .read width off => admitTxn s.n width off fun p => .next { s with replies := s.replies ++ [readPort s p] }
  | .write width off data => admitTxn s.n width off fun p => writePort p data s

/-- One input from outside: a transaction, or the reset input, which drops what it interrupted (70_reset_and_hazards.md
R290). -/
def applyInput (input : HostInput) (s : State) : Result :=
  match input with
  | .txn t => transact t s
  | .reset _ => .next (resetEngine s)

/-- The write to CMD that issues the command word `c` (30_encoding.md R81). -/
def cmdWrite (c : CmdWord) : HostInput := .txn (.write 64 offCmd (zext 64 c))

end Sys2Proof.Machine
end

