-- ==== Sys2Proof/Machine/Step.lean ====
section
/-! DEFINITION. One step: the first of the host's inputs takes effect (00_scope.md R17, 20_memory.md R62). -/

namespace Sys2Proof.Machine

/-- One transition of the model: the first input takes effect and leaves the list. With no input the engine is idle and
nothing changes (00_scope.md R17; log 1). -/
def step (s : State) : Host.Outcome State Fault Refusal :=
  match s.queue with
  | [] => .next s
  | input :: rest => applyInput input { s with queue := rest }

/-- `s` with the CMD write of a table row's bits as the host's very next transaction, and no error pending, so that the
command is not discarded (log 5). -/
def State.withFetchWord (s : State) (nbits w : Nat) : State :=
  { s with err := 0#4, queue := cmdWrite (tableWord nbits w) :: s.queue }

end Sys2Proof.Machine
end

