-- ==== Sys2Proof/Machine/Assembler.lean ====
section
/-! DEFINITION. The assembler's rules (30_encoding.md R79), the pseudo-instructions (R80) and the host-side notation (R81), over
a line already split into mnemonic, suffix and operands (log 12). -/

namespace Sys2Proof.Machine

/-- The mnemonics of the 22 commands (30_encoding.md R75), then the pseudo-instructions (R80). -/
inductive Mnemonic where
  | mov | ldi | add | sub | neg | mul | mulfw | div | rem | divrem | divfw
  | not | and | or | xor | shl | shr | bswap | cmp | isz | isneg | isodd
  | zero | sar | slr | tobe | tole | wadd | wsub
  deriving DecidableEq, Repr

/-- The suffix `.u` or `.s` (30_encoding.md R79). -/
inductive Suffix where
  | u | s
  deriving DecidableEq, Repr

/-- An operand: a register `x0` to `x7`, or a number. -/
inductive AsmOperand where
  | reg (r : Reg)
  | num (v : Int)
  deriving DecidableEq, Repr

/-- One line: `MNEMONIC[.u|.s] operands` (30_encoding.md R79). -/
structure AsmLine where
  mnemonic : Mnemonic
  suffix : Option Suffix
  operands : List AsmOperand
  deriving DecidableEq, Repr

/-- Why a line does not assemble (30_encoding.md R79). -/
inductive AsmError where
  /-- A command whose `S` is used has no suffix. -/
  | suffixRequired
  /-- A command whose `S` is ignored, or a pseudo-instruction, has a suffix. -/
  | suffixNotAllowed
  /-- The operands are not those of the command's format. -/
  | badOperands
  /-- The immediate is outside the range of its suffix. -/
  | immediateRange
  deriving DecidableEq, Repr

/-- Whether the command's `S` is used (30_encoding.md R75, column "S used"); a pseudo-instruction takes no suffix (R80). -/
def usesS : Mnemonic → Bool
  | .ldi => true
  | .add => true
  | .sub => true
  | .neg => true
  | .mul => true
  | .mulfw => true
  | .div => true
  | .rem => true
  | .divrem => true
  | .divfw => true
  | .shr => true
  | .cmp => true
  | .isneg => true
  | .mov => false
  | .not => false
  | .and => false
  | .or => false
  | .xor => false
  | .shl => false
  | .bswap => false
  | .isz => false
  | .isodd => false
  | .zero => false
  | .sar => false
  | .slr => false
  | .tobe => false
  | .tole => false
  | .wadd => false
  | .wsub => false

/-- The suffix rule: the `S` bit a suffix assembles, or the error (30_encoding.md R79). -/
def suffixBit (m : Mnemonic) (suffix : Option Suffix) : Except AsmError Bool :=
  match usesS m, suffix with
  | true, some .u => .ok false
  | true, some .s => .ok true
  | true, none => .error .suffixRequired
  | false, none => .ok false
  | false, some _ => .error .suffixNotAllowed

/-- The range of LDI's immediate: `-32768..32767` for `.s`, `0..65535` for `.u` (30_encoding.md R79). -/
def immInRange (S : Bool) (v : Int) : Bool :=
  if S then decide (-32768 ≤ v ∧ v ≤ 32767) else decide (0 ≤ v ∧ v ≤ 65535)

/-- The command of a mnemonic, its `S` and its operands, in the operand order of 30_encoding.md R79; the pseudo-instructions
expand as R80 says. -/
def asmCommand (m : Mnemonic) (S : Bool) (operands : List AsmOperand) : Except AsmError Instr :=
  match m, operands with
  | .mov, [.reg rd, .reg rs1] => .ok (.mov S rd rs1)
  | .ldi, [.reg rd, .num v] => if immInRange S v then .ok (.ldi S rd (BitVec.ofInt 16 v)) else .error .immediateRange
  | .add, [.reg rd, .reg rs1, .reg rs2] => .ok (.add S rd rs1 rs2)
  | .sub, [.reg rd, .reg rs1, .reg rs2] => .ok (.sub S rd rs1 rs2)
  | .neg, [.reg rd, .reg rs1] => .ok (.neg S rd rs1)
  | .mul, [.reg rd, .reg rs1, .reg rs2] => .ok (.mul S rd rs1 rs2)
  | .mulfw, [.reg rd, .reg rd2, .reg rs1, .reg rs2] => .ok (.mulfw S rd rd2 rs1 rs2)
  | .div, [.reg rd, .reg rs1, .reg rs2] => .ok (.div S rd rs1 rs2)
  | .rem, [.reg rd, .reg rs1, .reg rs2] => .ok (.rem S rd rs1 rs2)
  | .divrem, [.reg rd, .reg rd2, .reg rs1, .reg rs2] => .ok (.divrem S rd rd2 rs1 rs2)
  | .divfw, [.reg rd, .reg rd2, .reg rs1, .reg rs2, .reg rs3] => .ok (.divfw S rd rd2 rs1 rs2 rs3)
  | .not, [.reg rd, .reg rs1] => .ok (.not S rd rs1)
  | .and, [.reg rd, .reg rs1, .reg rs2] => .ok (.and S rd rs1 rs2)
  | .or, [.reg rd, .reg rs1, .reg rs2] => .ok (.or S rd rs1 rs2)
  | .xor, [.reg rd, .reg rs1, .reg rs2] => .ok (.xor S rd rs1 rs2)
  | .shl, [.reg rd, .reg rs1, .reg rs2] => .ok (.shl S rd rs1 rs2)
  | .shr, [.reg rd, .reg rs1, .reg rs2] => .ok (.shr S rd rs1 rs2)
  | .bswap, [.reg rd, .reg rs1] => .ok (.bswap S rd rs1)
  | .cmp, [.reg rd, .reg rs1, .reg rs2] => .ok (.cmp S rd rs1 rs2)
  | .isz, [.reg rd, .reg rs1] => .ok (.isz S rd rs1)
  | .isneg, [.reg rd, .reg rs1] => .ok (.isneg S rd rs1)
  | .isodd, [.reg rd, .reg rs1] => .ok (.isodd S rd rs1)
  | .zero, [.reg rd] => .ok (.ldi false rd 0#16)
  | .sar, [.reg rd, .reg rs1, .reg rs2] => .ok (.shr true rd rs1 rs2)
  | .slr, [.reg rd, .reg rs1, .reg rs2] => .ok (.shr false rd rs1 rs2)
  | .tobe, [.reg rd, .reg rs1] => .ok (.bswap false rd rs1)
  | .tole, [.reg rd, .reg rs1] => .ok (.mov false rd rs1)
  | .wadd, [.reg rd, .reg rs1, .reg rs2] => .ok (.add false rd rs1 rs2)
  | .wsub, [.reg rd, .reg rs1, .reg rs2] => .ok (.sub false rd rs1 rs2)
  | _, _ => .error .badOperands

/-- The assembler: the suffix rule, then the command (30_encoding.md R79, R80). -/
def assemble (line : AsmLine) : Except AsmError Instr :=
  match suffixBit line.mnemonic line.suffix with
  | .error e => .error e
  | .ok S => asmCommand line.mnemonic S line.operands

/-! ## Host-side notation (30_encoding.md R81) -/

/-- `HW x[r].j <- v`. -/
def hwWord (r : Reg) (j : Nat) (v : Word) : HostInput := .txn (.write 64 (offWord r j) v)

/-- `HR x[r].j`. -/
def hrWord (r : Reg) (j : Nat) : HostInput := .txn (.read 64 (offWord r j))

/-- `HW STATUS`. -/
def hwStatus : HostInput := .txn (.write 64 offStatus 0#64)

/-- `HR STATUS`. -/
def hrStatus : HostInput := .txn (.read 64 offStatus)

/-- `CMD <asm>`, for the command the line assembles to. -/
def cmdInstr (i : Instr) : HostInput := cmdWrite (encode i)

/-- `LOADV x[r] <- (w0, ..., w(N-1))`: one word write for each word, from word 0 up. -/
def loadv (r : Reg) (ws : List Word) : List HostInput := ws.zipIdx.map fun (w, j) => hwWord r j w

end Sys2Proof.Machine
end

