-- ==== Sys2Proof/Machine/Bus.lean ====
section
/-! DEFINITION. The window in a host's byte-addressed space, placed at the parameter `DWCE_BASE` (the argument `base`;
20_memory.md R51, R57; log 11). -/

namespace Sys2Proof.Machine

/-- The host address of byte `k` of a transaction at `off`: `DWCE_BASE + offset + k` (20_memory.md R57). -/
def hostAddress (base : Nat) (off : Offset) (k : Nat) : Nat := base + off.toNat + k

/-- The offset a host address names, if it lies in the 4096-byte window (20_memory.md R51). -/
def busOffset (base addr : Nat) : Option Offset :=
  if base ≤ addr ∧ addr < base + windowBytes then some (BitVec.ofNat 12 (addr - base)) else none

/-- Byte `k` of a transaction's data, `data[8*k+7 : 8*k]` (20_memory.md R57). -/
def byteLane (data : Word) (k : Nat) : Byte := data.extractLsb' (8 * k) 8

/-- The host's load of `width` bits at a host address, as a transaction of this engine's port. -/
def busRead (base addr width : Nat) : Option Txn := (busOffset base addr).map fun off => .read width off

/-- The host's store of `width` bits at a host address, as a transaction of this engine's port. -/
def busWrite (base addr width : Nat) (data : Word) : Option Txn := (busOffset base addr).map fun off => .write width off data

/-- The byte at a host address, as the 64-bit read that covers it carries it; `none` outside the window or where nothing is
mapped (20_memory.md R57). -/
def busByte (base : Nat) (s : State) (addr : Nat) : Option Byte :=
  match busOffset base addr with
  | none => none
  | some off => (portReg s.n (off - off % 8#12)).map fun p => byteLane (readPort s p) (off.toNat % 8)

end Sys2Proof.Machine
end

