-- ==== Sys2Proof/Machine/Datapath.lean ====
section
/-! DEFINITION. The datapaths the source prescribes: ripple adder, schoolbook and Karatsuba multiplier, short division and
Algorithm D, word-then-bit shifts and the comparison tree. The commands are defined by their exact values (00_scope.md R18,
"where an algorithm and a definition disagree, the definition wins"); that the datapaths give the same results is what the
obligations say. Words are listed in ascending order, word 0 first (00_scope.md R10). Log 10. -/

namespace Sys2Proof.Machine

/-! ## Word lists and word operators -/

/-- The `k` words of `v`, word 0 first (00_scope.md R10). -/
def toWords : Nat → Nat → List Word
  | 0, _ => []
  | k + 1, v => BitVec.ofNat 64 v :: toWords k (v / 2 ^ 64)

/-- The value of a word list, word 0 first (00_scope.md R10). -/
def ofWords : List Word → Nat
  | [] => 0
  | w :: ws => w.toNat + 2 ^ 64 * ofWords ws

/-- `addc(a, b, c)` (00_scope.md R13). -/
def addc (a b : Word) (c : Bool) : Word × Bool :=
  (BitVec.ofNat 64 (a.toNat + b.toNat + c.toNat), decide (2 ^ 64 ≤ a.toNat + b.toNat + c.toNat))

/-- `subb(a, b, c)` (00_scope.md R13). -/
def subb (a b : Word) (c : Bool) : Word × Bool :=
  (bits 64 ((a.toNat : Int) - b.toNat - c.toNat), decide ((a.toNat : Int) - b.toNat - c.toNat < 0))

/-- `mulw(a, b)` (00_scope.md R13), as the 128-bit value. -/
def mulw (a b : Word) : Nat := a.toNat * b.toNat

/-- `divw(h, l, d)` for `h < d` (00_scope.md R13): the quotient word and the remainder. -/
def divw (h : Nat) (l : Word) (d : Nat) : Word × Nat :=
  (BitVec.ofNat 64 ((h * 2 ^ 64 + l.toNat) / d), (h * 2 ^ 64 + l.toNat) % d)

/-- `clz(a)`, the number of leading zero bits of a word (00_scope.md R13). -/
def clz (a : Word) : Nat := if a = 0#64 then 64 else 63 - a.toNat.log2

/-! ## Addition and subtraction (42_addsub.md R123, R124) -/

/-- `ADD_ripple` from a carry in: the result words and the carry out (42_addsub.md R123). -/
def addRipple : List Word → List Word → Bool → List Word × Bool
  | a :: as, b :: bs, c =>
    let (r, c1) := addc a b c
    let (rs, c2) := addRipple as bs c1
    (r :: rs, c2)
  | _, _, c => ([], c)

/-- `SUB_ripple` from a borrow in: the result words and the borrow out (42_addsub.md R123). -/
def subRipple : List Word → List Word → Bool → List Word × Bool
  | a :: as, b :: bs, c =>
    let (r, c1) := subb a b c
    let (rs, c2) := subRipple as bs c1
    (r :: rs, c2)
  | _, _, c => ([], c)

/-- `ADD_ripple(a, b)` on operands (42_addsub.md R123). -/
def addDatapath (n : Width) (a b : BitVec n.bits) : BitVec n.bits × Bool :=
  let (r, c) := addRipple (toWords n.words (uval a)) (toWords n.words (uval b)) false
  (bits n.bits (ofWords r), c)

/-- `SUB_ripple(a, b)` on operands (42_addsub.md R123). -/
def subDatapath (n : Width) (a b : BitVec n.bits) : BitVec n.bits × Bool :=
  let (r, c) := subRipple (toWords n.words (uval a)) (toWords n.words (uval b)) false
  (bits n.bits (ofWords r), c)

/-- The top bit `v[W-1]`. -/
def topBit {w : Nat} (v : BitVec w) : Bool := v.getLsbD (w - 1)

/-- The overflow rule of ADD on the ripple's result and carry (42_addsub.md R124). -/
def addOvRule (S : Bool) {w : Nat} (a b r : BitVec w) (c : Bool) : Bool :=
  if S then topBit a == topBit b && topBit r != topBit a else c

/-- The overflow rule of SUB on the ripple's result and borrow (42_addsub.md R124). -/
def subOvRule (S : Bool) {w : Nat} (a b r : BitVec w) (c : Bool) : Bool :=
  if S then topBit a != topBit b && topBit r != topBit a else c

/-! ## Multiplication (43_multiply.md R142 to R146) -/

/-- The inner loop of `SCHOOL`: one word of `a` times the words of `b`, added to a window of the product buffer; the new
window and the carry out (43_multiply.md R142). -/
def schoolRow (a : Word) : List Word → List Word → Word → List Word × Word
  | b :: bs, p :: ps, c =>
    let t := mulw a b + p.toNat + c.toNat
    let (rs, c2) := schoolRow a bs ps (BitVec.ofNat 64 (t / 2 ^ 64))
    (BitVec.ofNat 64 t :: rs, c2)
  | _, _, c => ([], c)

/-- The outer loop of `SCHOOL` on the part of the product buffer from position `i` up (43_multiply.md R142). -/
def schoolRows : List Word → List Word → List Word → List Word
  | [], _, P => P
  | a :: as, bs, P =>
    let (row, c) := schoolRow a bs (P.take bs.length) 0#64
    match row ++ c :: P.drop (bs.length + 1) with
    | [] => []
    | p :: rest => p :: schoolRows as bs rest

/-- `SCHOOL(a, b, k)` on `k`-word operands, as a value (43_multiply.md R142). -/
def school (k a b : Nat) : Nat := ofWords (schoolRows (toWords k a) (toWords k b) (List.replicate (2 * k) 0#64))

/-- `KARATSUBA(a, b)` on operands of `2 * h` words, as an exact integer before the final `bits_2W` (43_multiply.md R143). -/
def karatsuba (h a b : Nat) : Int :=
  let β := 2 ^ (64 * h)
  let a1 := a / β
  let a0 := a % β
  let b1 := b / β
  let b0 := b % β
  let z2 := school h a1 b1
  let z0 := school h a0 b0
  let (sa, ca) := addRipple (toWords h a1) (toWords h a0) false
  let (sb, cb) := addRipple (toWords h b1) (toWords h b0) false
  let m := school h (ofWords sa) (ofWords sb) + β * (ca.toNat * ofWords sb + cb.toNat * ofWords sa) +
    ca.toNat * cb.toNat * β ^ 2
  let z1 : Int := (m : Int) - z2 - z0
  (z2 * β ^ 2 : Nat) + z1 * (β : Nat) + (z0 : Nat)

/-- `UPROD(a, b)`: the path is selected by `N` (43_multiply.md R144). -/
def uprod (n : Width) (a b : BitVec n.bits) : BitVec (2 * n.bits) :=
  if karatsubaMinN ≤ n.words then bits (2 * n.bits) (karatsuba (n.words / 2) (uval a) (uval b))
  else bits (2 * n.bits) (school n.words (uval a) (uval b))

/-- The high half of the signed product, from the unsigned one (43_multiply.md R145). -/
def correctedHigh (S : Bool) (n : Width) (a b : BitVec n.bits) : BitVec n.bits :=
  let hi : Int := (uval (uprod n a b) / 2 ^ n.bits : Nat)
  if S then bits n.bits (hi - ((topBit a).toNat * uval b : Nat) - ((topBit b).toNat * uval a : Nat)) else bits n.bits hi

/-- The low half of the product (43_multiply.md R145). -/
def correctedLow (n : Width) (a b : BitVec n.bits) : BitVec n.bits := bits n.bits (uval (uprod n a b) % 2 ^ n.bits : Nat)

/-- The overflow check of MUL on the two halves (43_multiply.md R146). -/
def mulOvRule (S : Bool) {w : Nat} (hi lo : BitVec w) : Bool :=
  if S then decide (hi ≠ if topBit lo then BitVec.allOnes w else 0#w) else decide (hi ≠ 0#w)

/-! ## Division (44_divide.md R174 to R182) -/

/-- The loop of `SHORTDIV` over the dividend words, most significant first, from a running remainder (44_divide.md R175). -/
def shortDivLoop (d : Nat) : List Word → Nat → List Word × Nat
  | [], r => ([], r)
  | u :: us, r =>
    let (q, r1) := divw r u d
    let (qs, r2) := shortDivLoop d us r1
    (q :: qs, r2)

/-- `SHORTDIV(u, L, d)`: quotient and remainder (44_divide.md R175). -/
def shortDiv (us : List Word) (d : Nat) : List Word × Nat :=
  let (qs, r) := shortDivLoop d us.reverse 0
  (qs.reverse, r)

/-- The count of significant words of the divisor (44_divide.md R174). -/
def sigWords (vs : List Word) : Nat := (vs.reverse.dropWhile (· = 0#64)).length

/-- The refinement loop of the digit estimate; the first argument bounds its turns (44_divide.md R177). -/
def refine (v1 v2 u2 : Nat) : Nat → Nat → Nat → Nat × Nat
  | 0, qhat, rhat => (qhat, rhat)
  | k + 1, qhat, rhat =>
    if rhat < 2 ^ 64 ∧ qhat * v2 > rhat * 2 ^ 64 + u2 then refine v1 v2 u2 k (qhat - 1) (rhat + v1)
    else (qhat, rhat)

/-- The digit estimate `qhat` and its remainder, after at most two refinements (44_divide.md R177). -/
def estimate (v1 v2 num u2 : Nat) : Nat × Nat :=
  let qhat := min (2 ^ 64 - 1) (num / v1)
  refine v1 v2 u2 2 qhat (num - qhat * v1)

/-- The add-back loop; the first argument bounds its turns (44_divide.md R178). -/
def addBack (vn : Nat) : Nat → Int → Nat → Int × Nat
  | 0, t, qhat => (t, qhat)
  | k + 1, t, qhat => if t < 0 then addBack vn k (t + vn) (qhat - 1) else (t, qhat)

/-- One quotient position `j`: estimate, multiply and subtract on the window `un[j .. j+n]`, add back at most twice; the
digit and the new dividend words (44_divide.md R177, R178). -/
def divDigit (vn : List Word) (j : Nat) (un : List Word) : Word × List Word :=
  let n := vn.length
  let word (ws : List Word) (i : Nat) : Nat := (ws.getD i 0#64).toNat
  let qhat := (estimate (word vn (n - 1)) (word vn (n - 2)) (word un (j + n) * 2 ^ 64 + word un (j + n - 1))
    (word un (j + n - 2))).1
  let window := (un.drop j).take (n + 1)
  let (t, q) := addBack (ofWords vn) 2 ((ofWords window : Int) - (qhat * ofWords vn : Nat)) qhat
  (BitVec.ofNat 64 q, un.take j ++ toWords (n + 1) t.toNat ++ un.drop (j + n + 1))

/-- The positions `k - 1` down to `0`: the digits, word 0 first, and the final dividend words (44_divide.md R177). -/
def divDigits (vn : List Word) : Nat → List Word → List Word × List Word
  | 0, un => ([], un)
  | j + 1, un =>
    let (q, un1) := divDigit vn j un
    let (qs, un2) := divDigits vn j un1
    (qs ++ [q], un2)

/-- Algorithm D for a divisor of `n >= 2` significant words: normalization, the digits, and the assembly of quotient and
remainder (44_divide.md R176 to R179). -/
def algorithmD (us vs : List Word) : Nat × Nat :=
  let n := sigWords vs
  let s := clz (vs.getD (n - 1) 0#64)
  let vn := toWords n (ofWords vs * 2 ^ s)
  let un := toWords (us.length + 1) (ofWords us * 2 ^ s)
  let (qs, unFinal) := divDigits vn (us.length - n + 1) un
  (ofWords (qs ++ List.replicate (n - 1) 0#64), ofWords (unFinal.take n) / 2 ^ s)

/-- `UDIVMOD(u, L, v)` on an `L`-word dividend and an `N`-word divisor, not zero (44_divide.md R174). -/
def udivmod (L N u v : Nat) : Nat × Nat :=
  let vs := toWords N v
  if sigWords vs = 1 then
    let (qs, r) := shortDiv (toWords L u) (vs.getD 0 0#64).toNat
    (ofWords qs, r)
  else algorithmD (toWords L u) vs

/-- The signed datapath on magnitudes, for an `L`-word dividend and an `N`-word divisor: `Q` and `R` before `bits`
(44_divide.md R182). -/
def signedDivmod (L N : Nat) (A D : Int) : Int × Int :=
  let (mq, mr) := udivmod L N A.natAbs D.natAbs
  (A.sign * D.sign * mq, A.sign * mr)

/-- Quotient and remainder of the "otherwise" row of 44_divide.md R181, by the kernel for `S = 0` and on magnitudes for
`S = 1` (R182). -/
def divDatapath (S : Bool) (n : Width) (a b : BitVec n.bits) : BitVec n.bits × BitVec n.bits :=
  if S then
    let (q, r) := signedDivmod n.words n.words (sval a) (sval b)
    (bits n.bits q, bits n.bits r)
  else
    let (q, r) := udivmod n.words n.words (uval a) (uval b)
    (bits n.bits q, bits n.bits r)

/-- The datapath of DIVFW for a divisor that is not zero: a `2N`-word dividend, the low `N` words of the quotient
(44_divide.md R173). -/
def divfwDatapath (S : Bool) (n : Width) (v h l : BitVec n.bits) : BitVec n.bits × BitVec n.bits :=
  if S then
    let (q, r) := signedDivmod (2 * n.words) n.words (sval (h ++ l)) (sval v)
    (bits n.bits q, bits n.bits r)
  else
    let (q, r) := udivmod (2 * n.words) n.words (uval (h ++ l)) (uval v)
    (bits n.bits q, bits n.bits r)

/-! ## Shifts (45_bitwise_shift.md R217, R218) -/

/-- `src(i)`: word `i` of the value where it has one, `fill` elsewhere (45_bitwise_shift.md R217, R218). -/
def srcWord (ws : List Word) (fill : Word) (i : Int) : Word :=
  if 0 ≤ i ∧ i < ws.length then ws.getD i.toNat fill else fill

/-- `SHL_words(a, k)` (45_bitwise_shift.md R217). -/
def shlWords (ws : List Word) (k : Nat) : List Word :=
  let wordShift := k / 64
  let bitShift := k % 64
  (List.range ws.length).map fun j =>
    let r := BitVec.ofNat 64 ((srcWord ws 0#64 ((j : Int) - wordShift)).toNat * 2 ^ bitShift)
    if bitShift > 0 then
      r ||| BitVec.ofNat 64 ((srcWord ws 0#64 ((j : Int) - wordShift - 1)).toNat / 2 ^ (64 - bitShift))
    else r

/-- `SHR_words(a, k, S)`; `fill` is all ones or zero (45_bitwise_shift.md R218). -/
def shrWords (ws : List Word) (fill : Word) (k : Nat) : List Word :=
  let wordShift := k / 64
  let bitShift := k % 64
  (List.range ws.length).map fun j =>
    let r := BitVec.ofNat 64 ((srcWord ws fill ((j : Int) + wordShift)).toNat / 2 ^ bitShift)
    if bitShift > 0 then
      r ||| BitVec.ofNat 64 ((srcWord ws fill ((j : Int) + wordShift + 1)).toNat * 2 ^ (64 - bitShift))
    else r

/-- The left-shift datapath on an operand (45_bitwise_shift.md R217). -/
def shlDatapath (n : Width) (a : BitVec n.bits) (k : Nat) : BitVec n.bits :=
  bits n.bits (ofWords (shlWords (toWords n.words (uval a)) k))

/-- The right-shift datapath on an operand (45_bitwise_shift.md R218). -/
def shrDatapath (S : Bool) (n : Width) (a : BitVec n.bits) (k : Nat) : BitVec n.bits :=
  bits n.bits (ofWords (shrWords (toWords n.words (uval a)) (if S && topBit a then BitVec.allOnes 64 else 0#64) k))

/-! ## Comparison (46_compare.md R244) -/

/-- `CMP_words` over the words from the most significant down; only the first is read with `S` (46_compare.md R244). -/
def cmpWords (S : Bool) : List Word → List Word → Int
  | a :: as, b :: bs => if val S a < val S b then -1 else if val S b < val S a then 1 else cmpWords false as bs
  | _, _ => 0

/-- The comparison tree on operands (46_compare.md R244). -/
def cmpDatapath (S : Bool) (n : Width) (a b : BitVec n.bits) : Int :=
  cmpWords S (toWords n.words (uval a)).reverse (toWords n.words (uval b)).reverse

end Sys2Proof.Machine
end

