-- ==== Sys2Proof/Safety.lean ====
section
/-! DEFINITION. What counts as a safe run: the host keeps to the contract of the port (20_memory.md R52, R55, R58), and no step
stops. -/

namespace Sys2Proof.Machine

/-- A transaction inside the contract of an engine of width `n`: 64 bits wide, aligned, mapped (20_memory.md R52, R53). -/
def Txn.Admitted (n : Width) : Txn → Prop
  | .read width off => width = 64 ∧ off.toNat % 8 = 0 ∧ (portReg n off).isSome
  | .write width off _ => width = 64 ∧ off.toNat % 8 = 0 ∧ (portReg n off).isSome

/-- An input inside the contract: an admitted transaction, or the reset input at any time (70_reset_and_hazards.md R290). -/
def HostInput.InContract (n : Width) : HostInput → Prop
  | .txn t => t.Admitted n
  | .reset _ => True

/-- The host keeps to the contract for everything it does from here on. -/
def State.HostKeepsContract (s : State) : Prop := ∀ input ∈ s.queue, input.InContract s.n

/-- No step of the run from `s` stops. -/
def State.RunsForever (s : State) : Prop := ∀ k, ∃ t, Host.Core.run Sys2Proof.core k s = .next t

end Sys2Proof.Machine
end

