-- ==== Sys2Proof/Certificates/Slice0/Obligations.lean ====
section
/-! DEFINITION. The statements for the provers, with the vocabulary they are written in. -/

namespace Sys2Proof.Spec

open Sys2Proof.Machine

/-! ## Vocabulary -/

/-- The frame of a command: of the state of 10_state.md R20 nothing changes but the registers `rds` and `OV`. -/
def OnlyWrites (rds : List Reg) (s t : State) : Prop :=
  t.n = s.n ∧ t.err = s.err ∧ t.errcmd = s.errcmd ∧ ∀ r, r ∉ rds → t.uval r = s.uval r

/-- All operand registers of `t` hold what they hold in `s`. -/
def SameRegisters (s t : State) : Prop := t.n = s.n ∧ ∀ r, t.uval r = s.uval r

/-- All the state of 10_state.md R20 is the same in `s` and `t`; the host's own lists (log 1, log 3) may differ. -/
def SameEngine (s t : State) : Prop := SameRegisters s t ∧ t.ov = s.ov ∧ t.err = s.err ∧ t.errcmd = s.errcmd

/-- `fits_S(n)` of 00_scope.md R12, written out. -/
def Fits (S : Bool) (w : Nat) (n : Int) : Prop :=
  if S = true then -(2 ^ (w - 1) : Int) ≤ n ∧ n < 2 ^ (w - 1) else 0 ≤ n ∧ n < 2 ^ w

/-- The row "signed overflow" of 44_divide.md R181: `S = 1`, `a = min_S`, `D = -1`. -/
def SignedOverflow (s : State) (S : Bool) (rs1 rs2 : Reg) : Prop :=
  S = true ∧ s.sval rs1 = -(2 ^ (s.W - 1) : Int) ∧ s.sval rs2 = -1

/-- The 3-bit field of a command word from bit `lo` up (30_encoding.md R72), as a number. -/
def field (c : CmdWord) (lo : Nat) : Nat := c.toNat / 2 ^ lo % 8

/-- Every word with `c & mask = match` of a format R1 row decodes to that row's command, its fields read as 30_encoding.md
R71 places them. -/
def SelectsR1 (op : Nat) (command : Bool → Reg → Reg → Instr) : Prop :=
  ∀ c : CmdWord, c &&& 0xFFFE38BF#32 = BitVec.ofNat 32 op → ∃ rd rs1, decode c = .ok (command (c.getLsbD 6) rd rs1) ∧
    rd.val = field c 8 ∧ rs1.val = field c 14

/-- The same for format R2. -/
def SelectsR2 (op : Nat) (command : Bool → Reg → Reg → Reg → Instr) : Prop :=
  ∀ c : CmdWord, c &&& 0xFFF038BF#32 = BitVec.ofNat 32 op → ∃ rd rs1 rs2, decode c = .ok (command (c.getLsbD 6) rd rs1 rs2) ∧
    rd.val = field c 8 ∧ rs1.val = field c 14 ∧ rs2.val = field c 17

/-- The same for format R2D, with DEST_CONFLICT for `rd = rd2` (30_encoding.md R78). -/
def SelectsR2D (op : Nat) (command : Bool → Reg → Reg → Reg → Reg → Instr) : Prop :=
  ∀ c : CmdWord, c &&& 0xFFF000BF#32 = BitVec.ofNat 32 op →
    (field c 8 = field c 11 → decode c = .error .destConflict) ∧
    (field c 8 ≠ field c 11 → ∃ rd rd2 rs1 rs2, decode c = .ok (command (c.getLsbD 6) rd rd2 rs1 rs2) ∧
      rd.val = field c 8 ∧ rd2.val = field c 11 ∧ rs1.val = field c 14 ∧ rs2.val = field c 17)

/-- A row of the opcode map: the opcode, the mask, and whether it has two destinations (30_encoding.md R73, R75). -/
structure Row where
  op : Nat
  mask : CmdWord
  two : Bool

/-- The 22 rows of 30_encoding.md R75, written out from the spec. The column "match" is the opcode itself. -/
def opcodeMap : List Row :=
  [⟨0x01, 0xFFFE38BF#32, false⟩, ⟨0x02, 0x0000F8BF#32, false⟩, ⟨0x08, 0xFFF038BF#32, false⟩, ⟨0x09, 0xFFF038BF#32, false⟩,
   ⟨0x0A, 0xFFFE38BF#32, false⟩, ⟨0x10, 0xFFF038BF#32, false⟩, ⟨0x11, 0xFFF000BF#32, true⟩, ⟨0x18, 0xFFF038BF#32, false⟩,
   ⟨0x19, 0xFFF038BF#32, false⟩, ⟨0x1A, 0xFFF000BF#32, true⟩, ⟨0x1B, 0xFF8000BF#32, true⟩] ++
  [⟨0x20, 0xFFFE38BF#32, false⟩, ⟨0x21, 0xFFF038BF#32, false⟩, ⟨0x22, 0xFFF038BF#32, false⟩, ⟨0x23, 0xFFF038BF#32, false⟩,
   ⟨0x24, 0xFFF038BF#32, false⟩, ⟨0x25, 0xFFF038BF#32, false⟩, ⟨0x26, 0xFFFE38BF#32, false⟩, ⟨0x28, 0xFFF038BF#32, false⟩,
   ⟨0x29, 0xFFFE38BF#32, false⟩, ⟨0x2A, 0xFFFE38BF#32, false⟩, ⟨0x2B, 0xFFFE38BF#32, false⟩]

/-- The illegal opcodes as 30_encoding.md R77 lists them. -/
def IllegalOpcode (op : Nat) : Prop :=
  op = 0x00 ∨ (0x03 ≤ op ∧ op ≤ 0x07) ∨ (0x0B ≤ op ∧ op ≤ 0x0F) ∨ (0x12 ≤ op ∧ op ≤ 0x17) ∨ (0x1C ≤ op ∧ op ≤ 0x1F) ∨
    op = 0x27 ∨ (0x2C ≤ op ∧ op ≤ 0x3F)

/-- The command word of a CMD write, `data[31:0]`. -/
def low32 (data : Word) : CmdWord := BitVec.ofNat 32 data.toNat

/-- The host's next transaction is `HostWrite(off, data)`; `rest` is what it does after. -/
def NextWrite (s : State) (off : Offset) (data : Word) (rest : List HostInput) : Prop :=
  s.queue = .txn (.write 64 off data) :: rest

/-- The host's next transaction is `HostRead(off)`. -/
def NextRead (s : State) (off : Offset) (rest : List HostInput) : Prop := s.queue = .txn (.read 64 off) :: rest

/-- `HostRead(off)` returns `d` and changes nothing in the engine; the model keeps the data in `replies` (log 3). -/
def ReadReturns (s : State) (off : Offset) (d : Nat) : Prop :=
  ∀ rest, NextRead s off rest → ∃ t w, step s = .next t ∧ SameEngine s t ∧ t.queue = rest ∧ t.replies = s.replies ++ [w] ∧
    w.toNat = d

/-- Word `j` of a register, as a number. -/
def wordNat (s : State) (r : Reg) (j : Nat) : Nat := s.uval r / 2 ^ (64 * j) % 2 ^ 64

/-- The invariant of the error registers: either no error is pending, or `ERR` is the code of the error that decoding
`ERRCMD` raises (10_state.md R31, R32). -/
def ErrorRegistersAgree (s : State) : Prop :=
  s.err = 0#4 ∨ ∃ e, decode s.errcmd = .error e ∧ s.err = errorCode e

/-- The 14 commands that always write 0 to `OV` (10_state.md R30: every command but ADD, SUB, NEG, MUL, DIV, REM, DIVREM and
DIVFW). -/
def NeverReports : Instr → Prop
  | .add _ _ _ _ => False
  | .sub _ _ _ _ => False
  | .neg _ _ _ => False
  | .mul _ _ _ _ => False
  | .div _ _ _ _ => False
  | .rem _ _ _ _ => False
  | .divrem _ _ _ _ _ => False
  | .divfw _ _ _ _ _ _ => False
  | .mov _ _ _ => True
  | .ldi _ _ _ => True
  | .mulfw _ _ _ _ _ => True
  | .not _ _ _ => True
  | .and _ _ _ _ => True
  | .or _ _ _ _ => True
  | .xor _ _ _ _ => True
  | .shl _ _ _ _ => True
  | .shr _ _ _ _ => True
  | .bswap _ _ _ => True
  | .cmp _ _ _ _ => True
  | .isz _ _ _ => True
  | .isneg _ _ _ => True
  | .isodd _ _ _ => True

/-- The opcodes whose `S` is marked "no" in 30_encoding.md R75. -/
def ignoresS : List Nat := [0x01, 0x20, 0x21, 0x22, 0x23, 0x24, 0x26, 0x29, 0x2B]

end Sys2Proof.Spec

open Sys2Proof Sys2Proof.Machine Sys2Proof.Spec

/-! ## Encoding -/

/-- 30_encoding.md R70, R77; 60_exceptions.md R263, R264, R265, R267: decoding in the order of R70, over the table of R75;
ILLEGAL_OPCODE is raised exactly for the opcodes R77 lists, whatever the other fields hold. -/
def Obligations.DecodingFollowsTheOpcodeMap : Prop :=
  (∀ c : CmdWord, decode c = .error .illegalOpcode ↔ IllegalOpcode (c.toNat % 64)) ∧
  ∀ c : CmdWord, ∀ row ∈ opcodeMap, c.toNat % 64 = row.op →
    (c &&& row.mask ≠ BitVec.ofNat 32 row.op → decode c = .error .reservedField) ∧
    (c &&& row.mask = BitVec.ofNat 32 row.op → row.two = true → field c 8 = field c 11 →
      decode c = .error .destConflict) ∧
    (c &&& row.mask = BitVec.ofNat 32 row.op → ¬ (row.two = true ∧ field c 8 = field c 11) →
      ∃ i, decode c = .ok i ∧ (encode i).toNat % 64 = row.op)

/-- Encode, then decode: a well-formed command comes back with every operand at every value; one that names one destination
twice is DEST_CONFLICT. -/
def Obligations.DecodeOfEncodeIsTheCommand : Prop :=
  ∀ i : Instr, (WellFormed i = true → decode (encode i) = .ok i) ∧
    (WellFormed i = false → decode (encode i) = .error .destConflict)

/-- Decode, then encode: no bit of a word that decodes is dropped, and what decodes is well-formed. -/
def Obligations.EncodeOfDecodeIsTheWord : Prop :=
  ∀ (c : CmdWord) (i : Instr), decode c = .ok i → encode i = c ∧ WellFormed i = true

/-- Words of the spec's vectors V1.3, V2.1, V3.11, V4.22, V5.14, V6.11 of 95_test_vectors.md decode to their commands. -/
def Obligations.WrittenOutWordsDecode : Prop :=
  decode 0xFFFE0342#32 = .ok (.ldi true 3 0xFFFE#16) ∧ decode 0x00020208#32 = .ok (.add false 2 0 1) ∧
    decode 0x00021A11#32 = .ok (.mulfw false 2 3 0 1) ∧ decode 0x00346C1B#32 = .ok (.divfw false 4 5 1 2 3) ∧
    decode 0x00020265#32 = .ok (.shr true 2 0 1) ∧ decode 0x0000016A#32 = .ok (.isneg true 1 0)

/-- 30_encoding.md R76: for an opcode whose `S` is marked "no", the words with `S = 0` and `S = 1` do the same, and neither is
an error. -/
def Obligations.IgnoredSignBitChangesNothing : Prop :=
  ∀ (c : CmdWord) (s : State), c.toNat % 64 ∈ ignoresS → (∃ i, decode c = .ok i) →
    (∃ i, decode (c ^^^ 0x40#32) = .ok i) ∧ runCommand (c ^^^ 0x40#32) s = runCommand c s

/-! ## The step -/

/-- A CMD write with no error pending and a word that decodes runs the command, after the transaction has left the host's
list; and the host's fixed entry places a command's word so that the very next step runs it, with no error pending (log 5). -/
def Obligations.StepRunsTheDecodedCommand : Prop :=
  (∀ (s : State) (data : Word) (rest : List HostInput) (i : Instr), NextWrite s 0x020#12 data rest → s.err = 0#4 →
    decode (low32 data) = .ok i → step s = exec i { s with queue := rest }) ∧
  ∀ (i : Instr) (s : State), WellFormed i = true →
    step (s.withFetchWord 32 (encode i).toNat) = exec i { s with err := 0#4 }

/-- 10_state.md R35: a CMD write runs bits 31:0 as a command word and ignores bits 63:32, a CMD read returns 0 and has no
effect. -/
def Obligations.CmdTakesLowHalfAndReadsZero : Prop :=
  (∀ (s : State) (data : Word) (rest : List HostInput), NextWrite s 0x020#12 data rest →
    step s = runCommand (low32 data) { s with queue := rest }) ∧
  (∀ (s : State) (d1 d2 : Word) (rest : List HostInput), d1.toNat % 2 ^ 32 = d2.toNat % 2 ^ 32 →
    step { s with queue := .txn (.write 64 0x020#12 d1) :: rest } =
      step { s with queue := .txn (.write 64 0x020#12 d2) :: rest }) ∧
    ∀ s : State, ReadReturns s 0x020#12 0

/-- 60_exceptions.md R262 with the codes of R261: error capture, and nothing else changes. -/
def Obligations.ErrorCaptureWritesOnlyErrAndErrcmd : Prop :=
  ∀ (s : State) (data : Word) (rest : List HostInput) (e : CommandError), NextWrite s 0x020#12 data rest → s.err = 0#4 →
    decode (low32 data) = .error e →
    ∃ t, step s = .next t ∧ t.errcmd = low32 data ∧ t.ov = s.ov ∧ SameRegisters s t ∧ t.queue = rest ∧
      (e = .illegalOpcode → t.err = 1#4) ∧ (e = .reservedField → t.err = 2#4) ∧ (e = .destConflict → t.err = 3#4)

/-- 60_exceptions.md R266: while `ERR` is not 0 a CMD write is discarded, and host word accesses still work. -/
def Obligations.PendingErrorDiscardsCommands : Prop :=
  (∀ (s : State) (data : Word) (rest : List HostInput), NextWrite s 0x020#12 data rest → s.err ≠ 0#4 →
    ∃ t, step s = .next t ∧ SameEngine s t ∧ t.queue = rest) ∧
  (∀ (s : State) (r : Reg) (j : Nat) (data : Word) (rest : List HostInput), j < s.n.words → s.err ≠ 0#4 →
    NextWrite s (BitVec.ofNat 12 (0x100 + 0x40 * r.val + 8 * j)) data rest →
    ∃ t, step s = .next t ∧ wordNat t r j = data.toNat ∧ t.err = s.err ∧ t.ov = s.ov ∧ t.errcmd = s.errcmd) ∧
  ∀ (s : State) (r : Reg) (j : Nat), j < s.n.words → s.err ≠ 0#4 →
    ReadReturns s (BitVec.ofNat 12 (0x100 + 0x40 * r.val + 8 * j)) (wordNat s r j)

/-- 10_state.md R36: a STATUS write clears `OV` and `ERR` whatever the data, and nothing else; a STATUS read gives `ERR` in
bits 7:4 and `OV` in bit 0, every other bit 0. -/
def Obligations.StatusWriteClearsAndReadShows : Prop :=
  (∀ (s : State) (data : Word) (rest : List HostInput), NextWrite s 0x010#12 data rest →
    ∃ t, step s = .next t ∧ t.ov = false ∧ t.err = 0#4 ∧ t.errcmd = s.errcmd ∧ SameRegisters s t) ∧
  ∀ s : State, ReadReturns s 0x010#12 (16 * s.err.toNat + s.ov.toNat)

/-- 60_exceptions.md R268: the only way out of a pending error is a STATUS write or the reset input; until then `ERR` and
`ERRCMD` keep the first error, and after a STATUS write ERRCMD still holds it and the next CMD write is decoded again. -/
def Obligations.OnlyStatusWriteOrResetClearsAnError : Prop :=
  (∀ s t : State, step s = .next t → s.err ≠ 0#4 →
    (t.err = s.err ∧ t.errcmd = s.errcmd) ∨
    (∃ data rest, NextWrite s 0x010#12 data rest ∧ t.err = 0#4 ∧ t.ov = false ∧ t.errcmd = s.errcmd) ∨
    (∃ dropped rest, s.queue = .reset dropped :: rest ∧ t.err = 0#4 ∧ t.ov = false)) ∧
  ∀ (s : State) (ignored data : Word) (rest : List HostInput),
    NextWrite s 0x010#12 ignored (.txn (.write 64 0x020#12 data) :: rest) →
    ∃ t, step s = .next t ∧ (∀ i, decode (low32 data) = .ok i → step t = exec i { t with queue := rest }) ∧
      ∀ e, decode (low32 data) = .error e → ∃ u, step t = .next u ∧ u.err = errorCode e ∧ u.errcmd = low32 data

/-- 10_state.md R32: ERRCMD is written only together with `ERR` by the capture (or by reset), a STATUS write and an ERRCMD
write leave it alone, and a read gives the word in bits 31:0, zero above. -/
def Obligations.ErrcmdIsWrittenOnlyByTheCapture : Prop :=
  (∀ s t : State, step s = .next t → t.errcmd ≠ s.errcmd →
    (∃ data rest e, NextWrite s 0x020#12 data rest ∧ s.err = 0#4 ∧ decode (low32 data) = .error e ∧
      t.errcmd = low32 data ∧ t.err = errorCode e) ∨
    ∃ dropped rest, s.queue = .reset dropped :: rest ∧ t.errcmd = 0#32) ∧
  (∀ (s : State) (data : Word) (rest : List HostInput), NextWrite s 0x018#12 data rest →
    ∃ t, step s = .next t ∧ SameEngine s t) ∧
  ∀ s : State, ReadReturns s 0x018#12 s.errcmd.toNat

/-- 10_state.md R33 and R34: ID and CONFIG read their constants and ignore writes. -/
def Obligations.IdAndConfigAreConstants : Prop :=
  ∀ s : State, ReadReturns s 0x000#12 0x0000000144574345 ∧
    ReadReturns s 0x008#12 (s.n.words + 2 ^ 8 * 8 + 2 ^ 16 * 64 + 2 ^ 24 * 6) ∧
    ∀ (off : Offset) (data : Word) (rest : List HostInput), off = 0x000#12 ∨ off = 0x008#12 → NextWrite s off data rest →
      ∃ t, step s = .next t ∧ SameEngine s t

/-- 20_memory.md R54: word access to an operand register, accepted whatever `ERR` is. -/
def Obligations.WordAccessTouchesOneWord : Prop :=
  ∀ (s : State) (r : Reg) (j : Nat), j < s.n.words →
    ReadReturns s (BitVec.ofNat 12 (0x100 + 0x40 * r.val + 8 * j)) (wordNat s r j) ∧
    ∀ (data : Word) (rest : List HostInput), NextWrite s (BitVec.ofNat 12 (0x100 + 0x40 * r.val + 8 * j)) data rest →
      ∃ t, step s = .next t ∧ t.n = s.n ∧ t.ov = s.ov ∧ t.err = s.err ∧ t.errcmd = s.errcmd ∧
        (∀ r', r' ≠ r → t.uval r' = s.uval r') ∧
        ∀ j', j' < s.n.words → wordNat t r j' = if j' = j then data.toNat else wordNat s r j'

/-- 20_memory.md R52, R53, R55: a 64-bit transaction is refused exactly when its offset is misaligned or unmapped; and a
transaction of another width is refused (R58). A refused transaction takes no step. -/
def Obligations.PortRefusesExactlyOutsideTheMap : Prop :=
  ∀ (s : State) (t : Txn) (rest : List HostInput), s.queue = .txn t :: rest →
    ((∃ reason, step s = .refused reason) ↔
      ¬ ∃ off : Offset, (t = .read 64 off ∨ ∃ data, t = .write 64 off data) ∧
        (off.toNat ∈ [0x000, 0x008, 0x010, 0x018, 0x020] ∨
          ∃ r j, r < 8 ∧ j < s.n.words ∧ off.toNat = 0x100 + 0x40 * r + 8 * j))

/-- 20_memory.md R59: a read has no side effect at any mapped offset, so it can be repeated with the same answer. -/
def Obligations.ReadsHaveNoSideEffects : Prop :=
  ∀ (s t : State) (width : Nat) (off : Offset) (rest : List HostInput), s.queue = .txn (.read width off) :: rest →
    step s = .next t → SameEngine s t ∧ ∃ d, t.replies = s.replies ++ [d] ∧
      step { t with queue := .txn (.read width off) :: rest } = .next { t with replies := t.replies ++ [d] }

/-- 10_state.md R38 with 70_reset_and_hazards.md R290: after the reset input every piece of state has its reset value; the
engine keeps its width. That a reset is an entry with the list of the transactions it takes back, so that the claim holds for
every such list and the later inputs stay (`t.queue = rest`), is the model's choice (log 4, DESIGN CHOICE and DEDUCED). -/
def Obligations.ResetInputZeroesEveryPiece : Prop :=
  (∀ (s : State) (dropped : List Txn) (rest : List HostInput), s.queue = .reset dropped :: rest →
    ∃ t, step s = .next t ∧ t.n = s.n ∧ (∀ r, t.uval r = 0) ∧ t.ov = false ∧ t.err = 0#4 ∧ t.errcmd = 0#32 ∧
      t.queue = rest) ∧
  ∀ n : Width, (State.resetAt n).n = n ∧ (∀ r, (State.resetAt n).uval r = 0) ∧ (State.resetAt n).ov = false ∧
    (State.resetAt n).err = 0#4 ∧ (State.resetAt n).errcmd = 0#32

/-- 00_scope.md R6: the legal values of `N`, and every other is refused. -/
def Obligations.EngineIsBuiltForFiveWidths : Prop :=
  ∀ k : Nat, (k ∈ [2, 3, 4, 6, 8] → ∃ s, State.build k = some s ∧ s.n.words = k ∧ s.W = 64 * k) ∧
    (k ∉ [2, 3, 4, 6, 8] → State.build k = none)

/-- The invariant of the error registers, kept by every step from every state that has it. -/
def Obligations.ErrorRegistersAgreeIsKept : Prop :=
  ∀ s t : State, ErrorRegistersAgree s → step s = .next t → ErrorRegistersAgree t ∧ t.err.toNat ≤ 3

/-- The invariant of the error registers holds after reset. -/
def Obligations.ErrorRegistersAgreeAtReset : Prop := ErrorRegistersAgree State.reset

/-- 20_memory.md R62: every transaction sees the effect of every earlier one and of no later one: a run of the first inputs
does not depend on the later ones. -/
def Obligations.LaterInputsDoNotMatter : Prop :=
  ∀ (first later : List HostInput) (s t : State),
    Host.Core.run core first.length { s with queue := first } = .next t →
    t.queue = [] ∧ Host.Core.run core first.length { s with queue := first ++ later } = .next { t with queue := later }

/-- Whole-machine frame: no command touches the width or the host's lists (log 1, log 3); no step changes the width; an operand
register changes only by a completed command, a word write to it, or reset (10_state.md R21, 20_memory.md R54,
60_exceptions.md R262). -/
def Obligations.RegistersChangeOnlyByTheirWriters : Prop :=
  (∀ (i : Instr) (s t : State), exec i s = .next t → t.n = s.n ∧ t.queue = s.queue ∧ t.replies = s.replies) ∧
  ∀ s t : State, step s = .next t → t.n = s.n ∧
    ∀ r, t.uval r ≠ s.uval r →
      (∃ data rest i, NextWrite s 0x020#12 data rest ∧ s.err = 0#4 ∧ decode (low32 data) = .ok i) ∨
      (∃ j data rest, j < s.n.words ∧ NextWrite s (BitVec.ofNat 12 (0x100 + 0x40 * r.val + 8 * j)) data rest) ∨
      ∃ dropped rest, s.queue = .reset dropped :: rest

/-- 10_state.md R30: `OV` is written by every command that completes, 0 by the commands that do not report; it changes only by
a completed command, a STATUS write or reset. -/
def Obligations.OverflowFlagChangesOnlyByItsWriters : Prop :=
  (∀ (i : Instr) (s t : State), NeverReports i → WellFormed i = true → exec i s = .next t → t.ov = false) ∧
  ∀ s t : State, step s = .next t → t.ov ≠ s.ov →
    (∃ data rest i, NextWrite s 0x020#12 data rest ∧ s.err = 0#4 ∧ decode (low32 data) = .ok i) ∨
    (∃ data rest, NextWrite s 0x010#12 data rest ∧ t.ov = false) ∨
    ∃ dropped rest, s.queue = .reset dropped :: rest ∧ t.ov = false

/-- A host that keeps to the contract of the port never stops the engine (20_memory.md R52, R55; 60_exceptions.md R260;
70_reset_and_hazards.md R302). -/
def Obligations.ContractKeepingHostNeverStopsTheEngine : Prop := ∀ s : State, s.HostKeepsContract → s.RunsForever

/-! ## The commands -/

/-- 41_construction.md R100. -/
def Obligations.MovCopiesTheRegister : Prop :=
  SelectsR1 0x01 Instr.mov ∧
  ∀ (S : Bool) (rd rs1 : Reg) (s : State), ∃ t, exec (.mov S rd rs1) s = .next t ∧ t.uval rd = s.uval rs1 ∧ t.ov = false ∧
    OnlyWrites [rd] s t

/-- 41_construction.md R101. -/
def Obligations.LdiLoadsTheExtendedImmediate : Prop :=
  (∀ c : CmdWord, c &&& 0x0000F8BF#32 = 0x00000002#32 → ∃ rd imm, decode c = .ok (.ldi (c.getLsbD 6) rd imm) ∧
    rd.val = field c 8 ∧ imm.toNat = c.toNat / 2 ^ 16) ∧
  (∀ c : CmdWord, c.toNat % 64 = 0x02 → c &&& 0x0000F880#32 ≠ 0#32 → decode c = .error .reservedField) ∧
  ∀ (S : Bool) (rd : Reg) (imm : BitVec 16) (s : State), ∃ t, exec (.ldi S rd imm) s = .next t ∧
    t.val S rd = (if S = true ∧ 2 ^ 15 ≤ imm.toNat then (imm.toNat : Int) - 65536 else (imm.toNat : Int)) ∧ t.ov = false ∧
    OnlyWrites [rd] s t

/-- 42_addsub.md R120. -/
def Obligations.AddWrapsAndReportsOverflow : Prop :=
  SelectsR2 0x08 Instr.add ∧
  ∀ (S : Bool) (rd rs1 rs2 : Reg) (s : State), ∃ t, exec (.add S rd rs1 rs2) s = .next t ∧
    (t.uval rd : Int) = (s.val S rs1 + s.val S rs2) % 2 ^ s.W ∧
    (t.ov = true ↔ ¬ Fits S s.W (s.val S rs1 + s.val S rs2)) ∧ OnlyWrites [rd] s t

/-- 42_addsub.md R121. -/
def Obligations.SubWrapsAndReportsOverflow : Prop :=
  SelectsR2 0x09 Instr.sub ∧
  ∀ (S : Bool) (rd rs1 rs2 : Reg) (s : State), ∃ t, exec (.sub S rd rs1 rs2) s = .next t ∧
    (t.uval rd : Int) = (s.val S rs1 - s.val S rs2) % 2 ^ s.W ∧
    (t.ov = true ↔ ¬ Fits S s.W (s.val S rs1 - s.val S rs2)) ∧ OnlyWrites [rd] s t

/-- 42_addsub.md R122: the flag is 1 exactly for `min_S` when signed and for every nonzero operand when unsigned. -/
def Obligations.NegNegatesAndReportsOverflow : Prop :=
  SelectsR1 0x0A Instr.neg ∧
  ∀ (S : Bool) (rd rs1 : Reg) (s : State), ∃ t, exec (.neg S rd rs1) s = .next t ∧
    (t.uval rd : Int) = (0 - s.val S rs1) % 2 ^ s.W ∧
    (t.ov = true ↔ if S = true then s.sval rs1 = -(2 ^ (s.W - 1) : Int) else s.uval rs1 ≠ 0) ∧ OnlyWrites [rd] s t

/-- 43_multiply.md R140. -/
def Obligations.MulKeepsTheLowHalfAndReportsOverflow : Prop :=
  SelectsR2 0x10 Instr.mul ∧
  ∀ (S : Bool) (rd rs1 rs2 : Reg) (s : State), ∃ t, exec (.mul S rd rs1 rs2) s = .next t ∧
    (t.uval rd : Int) = (s.val S rs1 * s.val S rs2) % 2 ^ s.W ∧
    (t.ov = true ↔ ¬ Fits S s.W (s.val S rs1 * s.val S rs2)) ∧ OnlyWrites [rd] s t

/-- 43_multiply.md R141: the two halves together are the exact product. -/
def Obligations.MulfwGivesTheWholeProduct : Prop :=
  SelectsR2D 0x11 Instr.mulfw ∧
  ∀ (S : Bool) (rd rd2 rs1 rs2 : Reg) (s : State), rd ≠ rd2 → ∃ t, exec (.mulfw S rd rd2 rs1 rs2) s = .next t ∧
    t.val S rd * 2 ^ s.W + t.uval rd2 = s.val S rs1 * s.val S rs2 ∧ t.ov = false ∧ OnlyWrites [rd, rd2] s t

/-- 44_divide.md R170 with the rows of R181. -/
def Obligations.DivRoundsTowardZero : Prop :=
  SelectsR2 0x18 Instr.div ∧
  ∀ (S : Bool) (rd rs1 rs2 : Reg) (s : State), ∃ t, exec (.div S rd rs1 rs2) s = .next t ∧ OnlyWrites [rd] s t ∧
    (s.uval rs2 = 0 → t.uval rd = s.uval rs1 ∧ t.ov = true) ∧
    (SignedOverflow s S rs1 rs2 → t.uval rd = s.uval rs1 ∧ t.ov = true) ∧
    (s.uval rs2 ≠ 0 → ¬ SignedOverflow s S rs1 rs2 → t.val S rd = Int.tdiv (s.val S rs1) (s.val S rs2) ∧ t.ov = false)

/-- 44_divide.md R171 with the rows of R181. -/
def Obligations.RemHasTheDividendsSign : Prop :=
  SelectsR2 0x19 Instr.rem ∧
  ∀ (S : Bool) (rd rs1 rs2 : Reg) (s : State), ∃ t, exec (.rem S rd rs1 rs2) s = .next t ∧ OnlyWrites [rd] s t ∧
    (s.uval rs2 = 0 → t.uval rd = s.uval rs1 ∧ t.ov = true) ∧
    (SignedOverflow s S rs1 rs2 → t.uval rd = 0 ∧ t.ov = true) ∧
    (s.uval rs2 ≠ 0 → ¬ SignedOverflow s S rs1 rs2 → t.val S rd = Int.tmod (s.val S rs1) (s.val S rs2) ∧ t.ov = false)

/-- 44_divide.md R172 with the rows of R181. -/
def Obligations.DivremGivesBothResults : Prop :=
  SelectsR2D 0x1A Instr.divrem ∧
  ∀ (S : Bool) (rd rd2 rs1 rs2 : Reg) (s : State), rd ≠ rd2 → ∃ t, exec (.divrem S rd rd2 rs1 rs2) s = .next t ∧
    OnlyWrites [rd, rd2] s t ∧
    (s.uval rs2 = 0 → t.uval rd = s.uval rs1 ∧ t.uval rd2 = s.uval rs1 ∧ t.ov = true) ∧
    (SignedOverflow s S rs1 rs2 → t.uval rd = s.uval rs1 ∧ t.uval rd2 = 0 ∧ t.ov = true) ∧
    (s.uval rs2 ≠ 0 → ¬ SignedOverflow s S rs1 rs2 → t.val S rd = Int.tdiv (s.val S rs1) (s.val S rs2) ∧
      t.val S rd2 = Int.tmod (s.val S rs1) (s.val S rs2) ∧ t.ov = false)

/-- 44_divide.md R173: full-width division, the quotient truncated silently, a zero divisor reported. -/
def Obligations.DivfwDividesTheFullWidthDividend : Prop :=
  (∀ c : CmdWord, c &&& 0xFF8000BF#32 = 0x0000001B#32 →
    (field c 8 = field c 11 → decode c = .error .destConflict) ∧
    (field c 8 ≠ field c 11 → ∃ rd rd2 rs1 rs2 rs3, decode c = .ok (.divfw (c.getLsbD 6) rd rd2 rs1 rs2 rs3) ∧
      rd.val = field c 8 ∧ rd2.val = field c 11 ∧ rs1.val = field c 14 ∧ rs2.val = field c 17 ∧ rs3.val = field c 20)) ∧
  ∀ (S : Bool) (rd rd2 rs1 rs2 rs3 : Reg) (s : State), rd ≠ rd2 →
    ∃ t, exec (.divfw S rd rd2 rs1 rs2 rs3) s = .next t ∧ OnlyWrites [rd, rd2] s t ∧
      (s.uval rs1 = 0 → t.uval rd = s.uval rs3 ∧ t.uval rd2 = s.uval rs3 ∧ t.ov = true) ∧
      (s.uval rs1 ≠ 0 →
        (t.uval rd : Int) = Int.tdiv (s.val S rs2 * 2 ^ s.W + s.uval rs3) (s.val S rs1) % 2 ^ s.W ∧
        t.val S rd2 = Int.tmod (s.val S rs2 * 2 ^ s.W + s.uval rs3) (s.val S rs1) ∧ t.ov = false)

/-- 45_bitwise_shift.md R210: the complement, bit by bit. -/
def Obligations.NotComplementsEveryBit : Prop :=
  SelectsR1 0x20 Instr.not ∧
  ∀ (S : Bool) (rd rs1 : Reg) (s : State), ∃ t, exec (.not S rd rs1) s = .next t ∧
    (∀ i, i < s.W → (t.uval rd).testBit i = !(s.uval rs1).testBit i) ∧ t.ov = false ∧ OnlyWrites [rd] s t

/-- 45_bitwise_shift.md R211, R212, R213: conjunction, disjunction and exclusive or, bit by bit. -/
def Obligations.LogicalCommandsActBitByBit : Prop :=
  (SelectsR2 0x21 Instr.and ∧ ∀ (S : Bool) (rd rs1 rs2 : Reg) (s : State), ∃ t, exec (.and S rd rs1 rs2) s = .next t ∧
    (∀ i, (t.uval rd).testBit i = ((s.uval rs1).testBit i && (s.uval rs2).testBit i)) ∧ t.ov = false ∧
    OnlyWrites [rd] s t) ∧
  (SelectsR2 0x22 Instr.or ∧ ∀ (S : Bool) (rd rs1 rs2 : Reg) (s : State), ∃ t, exec (.or S rd rs1 rs2) s = .next t ∧
    (∀ i, (t.uval rd).testBit i = ((s.uval rs1).testBit i || (s.uval rs2).testBit i)) ∧ t.ov = false ∧
    OnlyWrites [rd] s t) ∧
  (SelectsR2 0x23 Instr.xor ∧ ∀ (S : Bool) (rd rs1 rs2 : Reg) (s : State), ∃ t, exec (.xor S rd rs1 rs2) s = .next t ∧
    (∀ i, (t.uval rd).testBit i = ((s.uval rs1).testBit i != (s.uval rs2).testBit i)) ∧ t.ov = false ∧
    OnlyWrites [rd] s t)

/-- 45_bitwise_shift.md R214 with the amount of R215. -/
def Obligations.ShlMultipliesByAPowerOfTwo : Prop :=
  SelectsR2 0x24 Instr.shl ∧
  ∀ (S : Bool) (rd rs1 rs2 : Reg) (s : State), ∃ t, exec (.shl S rd rs1 rs2) s = .next t ∧
    t.uval rd = s.uval rs1 * 2 ^ (s.sval rs2 % (s.W : Int)).toNat % 2 ^ s.W ∧ t.ov = false ∧ OnlyWrites [rd] s t

/-- 45_bitwise_shift.md R216 with the amount of R215: the quotient by a power of two, rounded down. -/
def Obligations.ShrDividesByAPowerOfTwo : Prop :=
  SelectsR2 0x25 Instr.shr ∧
  ∀ (S : Bool) (rd rs1 rs2 : Reg) (s : State), ∃ t, exec (.shr S rd rs1 rs2) s = .next t ∧
    t.val S rd = ⌊((s.val S rs1 : Rat) / 2 ^ (s.sval rs2 % (s.W : Int)).toNat)⌋ ∧ t.ov = false ∧ OnlyWrites [rd] s t

/-- 45_bitwise_shift.md R219: a shift by `m + t*W` equals a shift by `m`, and a shift by `t*W` returns the operand, for SHL and
both forms of SHR. -/
def Obligations.ShiftAmountsAreReducedModuloTheWidth : Prop :=
  ∀ (S : Bool) (rd rs1 rs2 rs3 : Reg) (s : State) (k : Int),
    (s.sval rs3 = s.sval rs2 + k * s.W →
      exec (.shl S rd rs1 rs3) s = exec (.shl S rd rs1 rs2) s ∧ exec (.shr S rd rs1 rs3) s = exec (.shr S rd rs1 rs2) s) ∧
    (s.sval rs2 = k * s.W →
      (∃ t, exec (.shl S rd rs1 rs2) s = .next t ∧ t.uval rd = s.uval rs1) ∧
      ∃ t, exec (.shr S rd rs1 rs2) s = .next t ∧ t.uval rd = s.uval rs1)

/-- 45_bitwise_shift.md R220: byte `i` of the result is byte `8N - 1 - i` of the operand. -/
def Obligations.BswapReversesTheBytes : Prop :=
  SelectsR1 0x26 Instr.bswap ∧
  ∀ (S : Bool) (rd rs1 : Reg) (s : State), ∃ t, exec (.bswap S rd rs1) s = .next t ∧
    (∀ i, i < 8 * s.n.words → t.uval rd / 256 ^ i % 256 = s.uval rs1 / 256 ^ (8 * s.n.words - 1 - i) % 256) ∧
    t.ov = false ∧ OnlyWrites [rd] s t

/-- 46_compare.md R240: -1, 0 or +1 in the order that `S` selects. -/
def Obligations.CmpOrdersTheOperands : Prop :=
  SelectsR2 0x28 Instr.cmp ∧
  ∀ (S : Bool) (rd rs1 rs2 : Reg) (s : State), ∃ t, exec (.cmp S rd rs1 rs2) s = .next t ∧
    (s.val S rs1 < s.val S rs2 → t.sval rd = -1) ∧ (s.uval rs1 = s.uval rs2 → t.sval rd = 0) ∧
    (s.val S rs2 < s.val S rs1 → t.sval rd = 1) ∧ t.ov = false ∧ OnlyWrites [rd] s t

/-- 46_compare.md R241, R242, R243: the zero, negative and odd tests. -/
def Obligations.TestsWriteZeroOrOne : Prop :=
  (SelectsR1 0x29 Instr.isz ∧ ∀ (S : Bool) (rd rs1 : Reg) (s : State), ∃ t, exec (.isz S rd rs1) s = .next t ∧
    t.uval rd = (if s.uval rs1 = 0 then 1 else 0) ∧ t.ov = false ∧ OnlyWrites [rd] s t) ∧
  (SelectsR1 0x2A Instr.isneg ∧ ∀ (S : Bool) (rd rs1 : Reg) (s : State), ∃ t, exec (.isneg S rd rs1) s = .next t ∧
    t.uval rd = (if S = true ∧ s.sval rs1 < 0 then 1 else 0) ∧ t.ov = false ∧ OnlyWrites [rd] s t) ∧
  (SelectsR1 0x2B Instr.isodd ∧ ∀ (S : Bool) (rd rs1 : Reg) (s : State), ∃ t, exec (.isodd S rd rs1) s = .next t ∧
    t.uval rd = s.uval rs1 % 2 ∧ t.ov = false ∧ OnlyWrites [rd] s t)

/-! ## Laws -/

/-- 42_addsub.md R125: subtracting what was added gives the first operand back, with no condition on the flags. -/
def Obligations.SubUndoesAdd : Prop :=
  ∀ (S : Bool) (rd re rs1 rs2 : Reg) (s : State), rd ≠ rs2 →
    ∃ t u, exec (.add S rd rs1 rs2) s = .next t ∧ exec (.sub S re rd rs2) t = .next u ∧ u.uval re = s.uval rs1

/-- 43_multiply.md R147: multiplying by the negated operand gives the negated product, with no condition on the flags. -/
def Obligations.MultiplicationSignLaw : Prop :=
  ∀ (S : Bool) (ra rb rn rp rq rr : Reg) (s : State), rn ≠ ra → rn ≠ rb → rp ≠ ra → rp ≠ rb → rq ≠ rp →
    ∃ t1 t2 t3 t4, exec (.neg S rn rb) s = .next t1 ∧ exec (.mul S rp ra rn) t1 = .next t2 ∧
      exec (.mul S rq ra rb) t2 = .next t3 ∧ exec (.neg S rr rq) t3 = .next t4 ∧
      t4.uval rr = t3.uval rp

/-- 44_divide.md R183: the division identity of DIVREM, and of DIVFW where the quotient fits. -/
def Obligations.DivisionIdentity : Prop :=
  ∀ (S : Bool) (rd rd2 rs1 rs2 rs3 : Reg) (s t : State), rd ≠ rd2 →
    (exec (.divrem S rd rd2 rs1 rs2) s = .next t → t.ov = false →
      s.val S rs1 = s.val S rs2 * t.val S rd + t.val S rd2 ∧ (t.val S rd2).natAbs < (s.val S rs2).natAbs ∧
      (t.val S rd2 = 0 ∨ (t.val S rd2).sign = (s.val S rs1).sign)) ∧
    (exec (.divfw S rd rd2 rs1 rs2 rs3) s = .next t → t.ov = false →
      Fits S s.W (Int.tdiv (s.val S rs2 * 2 ^ s.W + s.uval rs3) (s.val S rs1)) →
      s.val S rs2 * 2 ^ s.W + s.uval rs3 = s.val S rs1 * t.val S rd + t.val S rd2)

/-- 41_construction.md R103 and 10_state.md R22: both readings, taken back to bits, give the pattern again, and the limbs give
the value back, unsigned and signed. -/
def Obligations.ReadingsAndLimbsKeepTheValue : Prop :=
  ∀ (n : Width) (v : BitVec n.bits), bits n.bits (sval v) = v ∧ bits n.bits (uval v) = v ∧
    lowWords n = (n.words + 1) / 2 ∧ highWords n = n.words / 2 ∧
    uval v = uval (highLimb v) * 2 ^ (64 * lowWords n) + uval (lowLimb v) ∧
    sval v = sval (highLimb v) * 2 ^ (64 * lowWords n) + uval (lowLimb v)

/-- 41_construction.md R102: writing the words of a register in any order and reading its limbs gives the words back. -/
def Obligations.LimbRoundTrip : Prop :=
  ∀ (s : State) (r : Reg) (order : List Nat) (d : Nat → Word), order.Nodup → (∀ j, j ∈ order ↔ j < s.n.words) →
    ∃ t, Host.Core.run core order.length { s with queue := order.map fun j => hwWord r j (d j) } = .next t ∧
      uval (lowLimb (t.reg r)) = ofWords ((List.range (lowWords s.n)).map d) ∧
      uval (highLimb (t.reg r)) = ofWords ((List.range (highWords s.n)).map fun j => d (lowWords s.n + j))

/-- 20_memory.md R57: the slot of a register, read byte by byte from its lowest host address, is its value in little-endian
order, for every placement of the window. -/
def Obligations.RegisterBytesAreLittleEndian : Prop :=
  ∀ (base : Nat) (s : State) (r : Reg) (k : Nat), k < 8 * s.n.words →
    ∃ b, busByte base s (base + 0x100 + 0x40 * r.val + k) = some b ∧ b.toNat = s.uval r / 256 ^ k % 256

/-! ## The datapaths agree with the definitions -/

/-- 42_addsub.md R123, R124: the ripple gives the wrapped sum and difference, its carry and borrow say when they do not fit
unsigned, and the overflow rules equal `not fits_S`. -/
def Obligations.RippleAdderAgrees : Prop :=
  ∀ (n : Width) (a b : BitVec n.bits),
    uval (addDatapath n a b).1 = (uval a + uval b) % 2 ^ n.bits ∧
    ((addDatapath n a b).2 = true ↔ 2 ^ n.bits ≤ uval a + uval b) ∧
    (uval (subDatapath n a b).1 : Int) = ((uval a : Int) - uval b) % 2 ^ n.bits ∧
    ((subDatapath n a b).2 = true ↔ uval a < uval b) ∧
    ∀ S : Bool,
      (addOvRule S a b (addDatapath n a b).1 (addDatapath n a b).2 = true ↔ ¬ Fits S n.bits (val S a + val S b)) ∧
      (subOvRule S a b (subDatapath n a b).1 (subDatapath n a b).2 = true ↔ ¬ Fits S n.bits (val S a - val S b))

/-- 43_multiply.md R142: the schoolbook product of `k`-word operands is exact, for every `k`. -/
def Obligations.SchoolbookProductIsExact : Prop :=
  ∀ k a b : Nat, a < 2 ^ (64 * k) → b < 2 ^ (64 * k) → school k a b = a * b

/-- 43_multiply.md R143: the Karatsuba product of operands of `2 * h` words is exact, so the path that R144 selects is not
observable. -/
def Obligations.MultiplierPathsAgree : Prop :=
  (∀ h a b : Nat, a < 2 ^ (64 * (2 * h)) → b < 2 ^ (64 * (2 * h)) → karatsuba h a b = ((a * b : Nat) : Int)) ∧
  ∀ (n : Width) (a b : BitVec n.bits), uval (uprod n a b) = uval a * uval b

/-- 43_multiply.md R145, R146: the signed correction gives the two halves of the exact product, and the check on the discarded
half equals `not fits_S`. -/
def Obligations.SignedCorrectionAgrees : Prop :=
  ∀ (S : Bool) (n : Width) (a b : BitVec n.bits),
    val S (correctedHigh S n a b) * 2 ^ n.bits + uval (correctedLow n a b) = val S a * val S b ∧
    (mulOvRule S (correctedHigh S n a b) (correctedLow n a b) = true ↔ ¬ Fits S n.bits (val S a * val S b))

/-- 44_divide.md R175: short division is exact. -/
def Obligations.ShortDivisionIsExact : Prop :=
  ∀ (us : List Word) (d : Nat), 0 < d → d < 2 ^ 64 →
    ofWords (shortDiv us d).1 = ofWords us / d ∧ (shortDiv us d).2 = ofWords us % d

/-- 44_divide.md R180 over R174 to R179: the kernel, short division or Algorithm D, returns the floor quotient and the
remainder. The bound of two refinements and two add-backs a digit is R177's, R178's and 70_reset_and_hazards.md R302's; the
kernel as a function on word lists is the model's choice (log 10, DESIGN CHOICE). -/
def Obligations.AlgorithmDIsCorrect : Prop :=
  ∀ L N u v : Nat, N ≤ L → u < 2 ^ (64 * L) → v < 2 ^ (64 * N) → v ≠ 0 → udivmod L N u v = (u / v, u % v)

/-- 44_divide.md R182 and the datapath of R173: division on magnitudes gives the values the commands define. -/
def Obligations.SignedDividerAgrees : Prop :=
  (∀ (S : Bool) (n : Width) (a b : BitVec n.bits), divCase S a b = .regular →
    divDatapath S n a b = (divQuotient S a b, divRemainder S a b)) ∧
  ∀ (S : Bool) (n : Width) (v h l : BitVec n.bits), val S v ≠ 0 →
    divfwDatapath S n v h l = (divfwQuotient S v h l, divfwRemainder S v h l)

/-- 45_bitwise_shift.md R217, R218: the word-then-bit shifts give `bits(uval(a) * 2^k)` and `bits(floor(val_S(a) / 2^k))`. -/
def Obligations.WordShiftsAgree : Prop :=
  ∀ (S : Bool) (n : Width) (a : BitVec n.bits) (k : Nat), k < n.bits →
    shlDatapath n a k = shiftLeft a k ∧ shrDatapath S n a k = shiftRight S a k

/-- 46_compare.md R244: the comparison tree gives the sign of the difference. -/
def Obligations.ComparisonTreeAgrees : Prop :=
  ∀ (S : Bool) (n : Width) (a b : BitVec n.bits), cmpDatapath S n a b = (val S a - val S b).sign

/-- 45_bitwise_shift.md R221: byte swap by limbs, and byte swap is an involution. -/
def Obligations.ByteSwapByLimbsAndInvolution : Prop :=
  ∀ (n : Width) (v : BitVec n.bits),
    uval (byteSwap v) = uval (byteSwap (lowLimb v)) * 2 ^ (64 * highWords n) + uval (byteSwap (highLimb v)) ∧
    byteSwap (byteSwap v) = v

/-! ## The assembler -/

/-- 30_encoding.md R80 and the immediate's range of R79: the pseudo-instructions are their expansions, and LDI assembles
exactly in the range of its suffix, to the immediate itself; a number outside it is an error, not a truncation. That a line is
split into tokens and that a pseudo-instruction takes no suffix is the model's choice (log 12, DESIGN CHOICE). -/
def Obligations.AssemblerExpandsAndChecksRanges : Prop :=
  (∀ rd rs1 rs2 : Reg,
    assemble ⟨.zero, none, [.reg rd]⟩ = assemble ⟨.ldi, some .u, [.reg rd, .num 0]⟩ ∧
    assemble ⟨.sar, none, [.reg rd, .reg rs1, .reg rs2]⟩ = assemble ⟨.shr, some .s, [.reg rd, .reg rs1, .reg rs2]⟩ ∧
    assemble ⟨.slr, none, [.reg rd, .reg rs1, .reg rs2]⟩ = assemble ⟨.shr, some .u, [.reg rd, .reg rs1, .reg rs2]⟩ ∧
    assemble ⟨.tobe, none, [.reg rd, .reg rs1]⟩ = assemble ⟨.bswap, none, [.reg rd, .reg rs1]⟩ ∧
    assemble ⟨.tole, none, [.reg rd, .reg rs1]⟩ = assemble ⟨.mov, none, [.reg rd, .reg rs1]⟩ ∧
    assemble ⟨.wadd, none, [.reg rd, .reg rs1, .reg rs2]⟩ = assemble ⟨.add, some .u, [.reg rd, .reg rs1, .reg rs2]⟩ ∧
    assemble ⟨.wsub, none, [.reg rd, .reg rs1, .reg rs2]⟩ = assemble ⟨.sub, some .u, [.reg rd, .reg rs1, .reg rs2]⟩) ∧
  ∀ (sfx : Suffix) (rd : Reg) (v : Int),
    ((if sfx = .s then -32768 ≤ v ∧ v ≤ 32767 else 0 ≤ v ∧ v ≤ 65535) →
      ∃ imm : BitVec 16, assemble ⟨.ldi, some sfx, [.reg rd, .num v]⟩ = .ok (.ldi (decide (sfx = .s)) rd imm) ∧
        (if sfx = .s then imm.toInt else (imm.toNat : Int)) = v) ∧
    (¬ (if sfx = .s then -32768 ≤ v ∧ v ≤ 32767 else 0 ≤ v ∧ v ≤ 65535) →
      assemble ⟨.ldi, some sfx, [.reg rd, .num v]⟩ = .error .immediateRange)
end

