-- ==== Sys2Proof/Laws/Decode.lean ====
section
/-! SUPPORT. The command word as a number: what the layouts and the fields are, digit by digit, and when the must-be-zero bits
of a format are zero. Proofs about the decoder and the encoder cite these and close by linear arithmetic. -/

namespace Sys2Proof

/-! ## Layouts (30_encoding.md R73) -/

theorem append_toNat {m n : Nat} (x : BitVec m) (y : BitVec n) : (x ++ y).toNat = x.toNat * 2 ^ n + y.toNat := by
  rw [BitVec.toNat_append, ← Nat.shiftLeft_add_eq_or_of_lt y.isLt, Nat.shiftLeft_eq]

theorem ofBool_toNat (b : Bool) : (BitVec.ofBool b).toNat = b.toNat := by cases b <;> rfl

theorem regBits_toNat (r : Reg) : (regBits r).toNat = r.val := rfl

theorem packR_toNat (rs3 rs2 rs1 rd2 rd : Reg) (S : Bool) (op : BitVec 6) :
    (packR rs3 rs2 rs1 rd2 rd S op).toNat =
      op.toNat + 2 ^ 6 * S.toNat + 2 ^ 8 * rd.val + 2 ^ 11 * rd2.val + 2 ^ 14 * rs1.val + 2 ^ 17 * rs2.val + 2 ^ 20 * rs3.val := by
  have h : (packR rs3 rs2 rs1 rd2 rd S op).toNat =
      (((((((0 * 2 ^ 3 + rs3.val) * 2 ^ 3 + rs2.val) * 2 ^ 3 + rs1.val) * 2 ^ 3 + rd2.val) * 2 ^ 3 + rd.val) * 2 ^ 1 + 0) *
        2 ^ 1 + S.toNat) * 2 ^ 6 + op.toNat := by
    refine (append_toNat _ op).trans (congrArg (· * 2 ^ 6 + op.toNat) ?_)
    refine (append_toNat _ (BitVec.ofBool S)).trans ?_
    rw [ofBool_toNat]
    refine congrArg (· * 2 ^ 1 + S.toNat) ?_
    refine (append_toNat _ 0#1).trans (congrArg (· * 2 ^ 1 + 0) ?_)
    refine (append_toNat _ (regBits rd)).trans (congrArg (· * 2 ^ 3 + rd.val) ?_)
    refine (append_toNat _ (regBits rd2)).trans (congrArg (· * 2 ^ 3 + rd2.val) ?_)
    refine (append_toNat _ (regBits rs1)).trans (congrArg (· * 2 ^ 3 + rs1.val) ?_)
    refine (append_toNat _ (regBits rs2)).trans (congrArg (· * 2 ^ 3 + rs2.val) ?_)
    exact append_toNat 0#9 (regBits rs3)
  rw [h]
  ring

theorem packI_toNat (imm : BitVec 16) (rd : Reg) (S : Bool) (op : BitVec 6) :
    (packI imm rd S op).toNat = op.toNat + 2 ^ 6 * S.toNat + 2 ^ 8 * rd.val + 2 ^ 16 * imm.toNat := by
  have h : (packI imm rd S op).toNat =
      ((((imm.toNat * 2 ^ 5 + 0) * 2 ^ 3 + rd.val) * 2 ^ 1 + 0) * 2 ^ 1 + S.toNat) * 2 ^ 6 + op.toNat := by
    refine (append_toNat _ op).trans (congrArg (· * 2 ^ 6 + op.toNat) ?_)
    refine (append_toNat _ (BitVec.ofBool S)).trans ?_
    rw [ofBool_toNat]
    refine congrArg (· * 2 ^ 1 + S.toNat) ?_
    refine (append_toNat _ 0#1).trans (congrArg (· * 2 ^ 1 + 0) ?_)
    refine (append_toNat _ (regBits rd)).trans (congrArg (· * 2 ^ 3 + rd.val) ?_)
    exact append_toNat imm 0#5
  rw [h]
  ring

/-! ## Fields (30_encoding.md R71, R72) -/

theorem opField_toNat (c : CmdWord) : (opField c).toNat = c.toNat % 64 := by
  simp [opField]

theorem regField_val (lo : Nat) (c : CmdWord) : (regField lo c).val = c.toNat / 2 ^ lo % 8 := by
  have h : (regField lo c).val = (c.extractLsb' lo 3).toNat := rfl
  rw [h, BitVec.extractLsb'_toNat, Nat.shiftRight_eq_div_pow]

theorem imm_toNat (c : CmdWord) : (fieldsOf c).imm.toNat = c.toNat / 2 ^ 16 := by
  have := c.isLt
  simp only [fieldsOf, BitVec.extractLsb'_toNat, Nat.shiftRight_eq_div_pow]
  omega

theorem sField_toNat (c : CmdWord) : (fieldsOf c).S.toNat = c.toNat / 2 ^ 6 % 2 := by
  simp only [fieldsOf, BitVec.getLsbD, Nat.testBit_eq_decide_div_mod_eq]
  rcases Nat.mod_two_eq_zero_or_one (c.toNat / 2 ^ 6) with h | h <;> rw [h] <;> rfl

/-! ## Must-be-zero bits (30_encoding.md R73) -/

/-- A run of `len` bits from `lo` up is zero exactly when that digit of the number is. -/
theorem and_run_eq_zero (c : CmdWord) (lo len : Nat) (hl : lo + len ≤ 32) :
    c &&& (BitVec.ofNat 32 (2 ^ len - 1) <<< lo) = 0#32 ↔ c.toNat / 2 ^ lo % 2 ^ len = 0 := by
  have key : (c.toNat / 2 ^ lo % 2 ^ len = 0) ↔
      ∀ i, i < len → lo + i < 32 → c.getLsbD (lo + i) = false := by
    constructor
    · intro h i hi h32
      have := congrArg (fun m => m.testBit i) h
      simp only [Nat.testBit_mod_two_pow, Nat.testBit_div_two_pow, Nat.zero_testBit, Bool.and_eq_false_iff,
        decide_eq_false_iff_not] at this
      rcases this with h' | h'
      · omega
      · rw [Nat.add_comm] at h'
        simpa [BitVec.getLsbD] using h'
    · intro h
      apply Nat.eq_of_testBit_eq
      intro i
      simp only [Nat.testBit_mod_two_pow, Nat.testBit_div_two_pow, Nat.zero_testBit, Bool.and_eq_false_iff,
        decide_eq_false_iff_not]
      by_cases hi : i < len
      · right
        have := h i (by omega) (by omega)
        rw [Nat.add_comm]
        simpa [BitVec.getLsbD] using this
      · exact .inl hi
  rw [key]
  constructor
  · intro h i hi h32
    have := congrArg (fun m => BitVec.getLsbD m (lo + i)) h
    simp only [BitVec.getLsbD_and, BitVec.getLsbD_shiftLeft, BitVec.getLsbD_ofNat, Nat.add_sub_cancel_left,
      Nat.testBit_two_pow_sub_one, Nat.zero_testBit, hi, h32, show i < 32 by omega, show ¬ lo + i < lo by omega] at this
    simpa using this
  · intro h
    apply BitVec.eq_of_getLsbD_eq
    intro k hk
    simp only [BitVec.getLsbD_and, BitVec.getLsbD_shiftLeft, BitVec.getLsbD_ofNat, Nat.zero_testBit, Bool.and_false,
      Bool.and_eq_false_iff]
    by_cases hlo : k < lo
    · simp [hlo]
    · by_cases hlen : k - lo < len
      · left
        have := h (k - lo) hlen (by omega)
        rwa [Nat.add_sub_cancel' (by omega)] at this
      · right
        simp [Nat.testBit_two_pow_sub_one, hlen]

theorem and_or_eq_zero (c m k : CmdWord) : c &&& (m ||| k) = 0#32 ↔ c &&& m = 0#32 ∧ c &&& k = 0#32 := by
  rw [BitVec.and_or_distrib_left, BitVec.or_eq_zero_iff]

/-- The must-be-zero bits of each format, as digits of the number. -/
theorem mustBeZero_iff (fmt : Format) (c : CmdWord) : c &&& fmt.mustBeZero = 0#32 ↔
    c.toNat / 2 ^ 7 % 2 = 0 ∧
      match fmt with
      | .r1 => c.toNat / 2 ^ 11 % 8 = 0 ∧ c.toNat / 2 ^ 17 = 0
      | .r2 => c.toNat / 2 ^ 11 % 8 = 0 ∧ c.toNat / 2 ^ 20 = 0
      | .r2d => c.toNat / 2 ^ 20 = 0
      | .r3d => c.toNat / 2 ^ 23 = 0
      | .i => c.toNat / 2 ^ 11 % 32 = 0 := by
  have hc := c.isLt
  have b7 := and_run_eq_zero c 7 1 (by decide)
  have b11 := and_run_eq_zero c 11 3 (by decide)
  have b11i := and_run_eq_zero c 11 5 (by decide)
  have b17 := and_run_eq_zero c 17 15 (by decide)
  have b20 := and_run_eq_zero c 20 12 (by decide)
  have b23 := and_run_eq_zero c 23 9 (by decide)
  cases fmt with
  | r1 =>
    rw [show Format.r1.mustBeZero = (BitVec.ofNat 32 (2 ^ 1 - 1) <<< 7 ||| (BitVec.ofNat 32 (2 ^ 3 - 1) <<< 11 |||
      BitVec.ofNat 32 (2 ^ 15 - 1) <<< 17)) from by decide, and_or_eq_zero, and_or_eq_zero, b7, b11, b17]
    omega
  | r2 =>
    rw [show Format.r2.mustBeZero = (BitVec.ofNat 32 (2 ^ 1 - 1) <<< 7 ||| (BitVec.ofNat 32 (2 ^ 3 - 1) <<< 11 |||
      BitVec.ofNat 32 (2 ^ 12 - 1) <<< 20)) from by decide, and_or_eq_zero, and_or_eq_zero, b7, b11, b20]
    omega
  | r2d =>
    rw [show Format.r2d.mustBeZero = (BitVec.ofNat 32 (2 ^ 1 - 1) <<< 7 ||| BitVec.ofNat 32 (2 ^ 12 - 1) <<< 20)
      from by decide, and_or_eq_zero, b7, b20]
    omega
  | r3d =>
    rw [show Format.r3d.mustBeZero = (BitVec.ofNat 32 (2 ^ 1 - 1) <<< 7 ||| BitVec.ofNat 32 (2 ^ 9 - 1) <<< 23)
      from by decide, and_or_eq_zero, b7, b23]
    omega
  | i =>
    rw [show Format.i.mustBeZero = (BitVec.ofNat 32 (2 ^ 1 - 1) <<< 7 ||| BitVec.ofNat 32 (2 ^ 5 - 1) <<< 11)
      from by decide, and_or_eq_zero, b7, b11i]
    omega

/-- A word under a mask that keeps the opcode field has the opcode of its match. -/
theorem opField_of_and_mask {c m : CmdWord} {k : Nat} (hm : m &&& 0x3F#32 = 0x3F#32)
    (h : c &&& m = BitVec.ofNat 32 k) : opField c = BitVec.ofNat 6 k := by
  have h2 : c &&& 0x3F#32 = BitVec.ofNat 32 k &&& 0x3F#32 := by rw [← h, BitVec.and_assoc, hm]
  have h3 := congrArg BitVec.toNat h2
  simp only [BitVec.toNat_and, BitVec.toNat_ofNat] at h3
  have e : ∀ x : Nat, x &&& 0x3F % 2 ^ 32 = x % 64 := fun x => by
    rw [show (0x3F % 2 ^ 32 : Nat) = 2 ^ 6 - 1 by norm_num, Nat.and_two_pow_sub_one_eq_mod]
  rw [e, e] at h3
  apply BitVec.eq_of_toNat_eq
  rw [opField_toNat, h3, BitVec.toNat_ofNat]
  omega

/-- A word under a mask meets the must-be-zero bits that the mask covers and the match has not. -/
theorem and_mustBeZero_of_and_mask {c m z : CmdWord} {k : Nat} (hz : m &&& z = z) (hk : BitVec.ofNat 32 k &&& z = 0#32)
    (h : c &&& m = BitVec.ofNat 32 k) : c &&& z = 0#32 := by
  rw [← hz, ← BitVec.and_assoc, h, hk]

/-! ## Decoding -/

/-- What decoding a word whose opcode is legal gives, by its three checks. -/
theorem decode_of_row {c : CmdWord} {fmt : Format} {command : Fields → Instr}
    (h : opcodeRow (opField c) = some (fmt, command)) : decode c =
      if c &&& fmt.mustBeZero ≠ 0#32 then .error .reservedField
      else if fmt.twoDest && decide (regField 8 c = regField 11 c) then .error .destConflict
      else .ok (command (fieldsOf c)) := by
  rw [decode, h]

/-- The fields of a word laid out in a register format. -/
theorem fields_of_packR (rs3 rs2 rs1 rd2 rd : Reg) (S : Bool) (op : BitVec 6) :
    opField (packR rs3 rs2 rs1 rd2 rd S op) = op ∧
      fieldsOf (packR rs3 rs2 rs1 rd2 rd S op) =
        { S := S, rd := rd, rd2 := rd2, rs1 := rs1, rs2 := rs2, rs3 := rs3,
          imm := (packR rs3 rs2 rs1 rd2 rd S op).extractLsb' 16 16 } := by
  have := op.isLt; have := rd.isLt; have := rd2.isLt; have := rs1.isLt; have := rs2.isLt; have := rs3.isLt
  have := Bool.toNat_lt S
  have hS : (fieldsOf (packR rs3 rs2 rs1 rd2 rd S op)).S = S := by
    have h := sField_toNat (packR rs3 rs2 rs1 rd2 rd S op)
    rw [packR_toNat] at h
    have : (fieldsOf (packR rs3 rs2 rs1 rd2 rd S op)).S.toNat = S.toNat := by omega
    revert this
    cases (fieldsOf (packR rs3 rs2 rs1 rd2 rd S op)).S <;> cases S <;> simp
  have key : ∀ {a b : Reg}, a.val = b.val → a = b := fun h => Fin.ext h
  have e : fieldsOf (packR rs3 rs2 rs1 rd2 rd S op) =
      { S := (fieldsOf (packR rs3 rs2 rs1 rd2 rd S op)).S
        rd := regField 8 (packR rs3 rs2 rs1 rd2 rd S op), rd2 := regField 11 (packR rs3 rs2 rs1 rd2 rd S op)
        rs1 := regField 14 (packR rs3 rs2 rs1 rd2 rd S op), rs2 := regField 17 (packR rs3 rs2 rs1 rd2 rd S op)
        rs3 := regField 20 (packR rs3 rs2 rs1 rd2 rd S op)
        imm := (packR rs3 rs2 rs1 rd2 rd S op).extractLsb' 16 16 } := rfl
  refine ⟨BitVec.eq_of_toNat_eq ?_, ?_⟩
  · rw [opField_toNat, packR_toNat]; omega
  · rw [e, hS]
    congr 1 <;> refine key ?_ <;> rw [regField_val, packR_toNat] <;> omega

/-- The fields of a word laid out in format I. -/
theorem fields_of_packI (imm : BitVec 16) (rd : Reg) (S : Bool) (op : BitVec 6) :
    opField (packI imm rd S op) = op ∧ (fieldsOf (packI imm rd S op)).S = S ∧ (fieldsOf (packI imm rd S op)).rd = rd ∧
      (fieldsOf (packI imm rd S op)).imm = imm := by
  have := op.isLt; have := rd.isLt; have := imm.isLt
  have := Bool.toNat_lt S
  have hS : (fieldsOf (packI imm rd S op)).S = S := by
    have h := sField_toNat (packI imm rd S op)
    rw [packI_toNat] at h
    have : (fieldsOf (packI imm rd S op)).S.toNat = S.toNat := by omega
    revert this
    cases (fieldsOf (packI imm rd S op)).S <;> cases S <;> simp
  refine ⟨BitVec.eq_of_toNat_eq ?_, hS, Fin.ext ?_, BitVec.eq_of_toNat_eq ?_⟩
  · rw [opField_toNat, packI_toNat]; omega
  · have h : (fieldsOf (packI imm rd S op)).rd = regField 8 (packI imm rd S op) := rfl
    rw [h, regField_val, packI_toNat]; omega
  · rw [imm_toNat, packI_toNat]; omega

/-- The legal opcodes. -/
theorem legal_opcode {op : BitVec 6} (h : (opcodeRow op).isSome) :
    op.toNat ∈ [1, 2, 8, 9, 10, 16, 17, 24, 25, 26, 27, 32, 33, 34, 35, 36, 37, 38, 40, 41, 42, 43] := by
  revert op
  decide

/-- What a word that decodes has passed. -/
theorem decode_eq_ok {c : CmdWord} {i : Instr} (h : decode c = .ok i) : ∃ fmt command,
    opcodeRow (opField c) = some (fmt, command) ∧ c &&& fmt.mustBeZero = 0#32 ∧
      (fmt.twoDest = true → regField 8 c ≠ regField 11 c) ∧ i = command (fieldsOf c) := by
  cases hr : opcodeRow (opField c) with
  | none => rw [decode, hr] at h; cases h
  | some row =>
    obtain ⟨fmt, command⟩ := row
    rw [decode_of_row hr] at h
    split at h
    · cases h
    · rename_i hz
      split at h
      · cases h
      · rename_i hd
        cases h
        refine ⟨fmt, command, rfl, by simpa using hz, fun ht he => hd (by simp [ht, he]), rfl⟩

/-- A row's command is well-formed unless its format has two destinations and they are the same register. -/
theorem row_wellFormed {op : BitVec 6} {fmt : Format} {command : Fields → Instr} (f : Fields)
    (h : opcodeRow op = some (fmt, command)) : WellFormed (command f) = (!fmt.twoDest || decide (f.rd ≠ f.rd2)) := by
  have hm := legal_opcode (op := op) (by rw [h]; rfl)
  have ho : op = BitVec.ofNat 6 op.toNat := by simp
  simp only [List.mem_cons, List.not_mem_nil, or_false] at hm
  rcases hm with hm | hm | hm | hm | hm | hm | hm | hm | hm | hm | hm | hm | hm | hm | hm | hm | hm | hm | hm | hm | hm | hm
  all_goals
    rw [hm] at ho
    subst ho
    cases h
    rfl

/-- What decodes is well-formed. -/
theorem wellFormed_of_decode {c : CmdWord} {i : Instr} (h : decode c = .ok i) : WellFormed i = true := by
  obtain ⟨fmt, command, hr, _, hd, rfl⟩ := decode_eq_ok h
  rw [row_wellFormed (fieldsOf c) hr]
  cases ht : fmt.twoDest
  · rfl
  · simpa [fieldsOf] using hd ht

end Sys2Proof
end

