-- ==== Sys2Proof/Laws/State.lean ====
section
/-! SUPPORT. One lemma for each field of the state under each update, so that no later proof unfolds a record update; and what
a register write reads back as. -/

namespace Sys2Proof.Machine

variable (s : State) (r q : Reg)

/-! ## `State.write` -/

@[simp] theorem write_n (v : BitVec s.W) : (s.write r v).n = s.n := rfl
@[simp] theorem write_ov (v : BitVec s.W) : (s.write r v).ov = s.ov := rfl
@[simp] theorem write_err (v : BitVec s.W) : (s.write r v).err = s.err := rfl
@[simp] theorem write_errcmd (v : BitVec s.W) : (s.write r v).errcmd = s.errcmd := rfl
@[simp] theorem write_queue (v : BitVec s.W) : (s.write r v).queue = s.queue := rfl
@[simp] theorem write_replies (v : BitVec s.W) : (s.write r v).replies = s.replies := rfl

/-- Read after write, at any register. -/
theorem reg_write (v : BitVec s.W) : (s.write r v).reg q = if q = r then v else s.reg q := by
  simp only [State.reg, State.write, Vector.getElem_set, Fin.ext_iff, eq_comm]

@[simp] theorem reg_write_same (v : BitVec s.W) : (s.write r v).reg r = v := by
  simp [State.reg, State.write]

theorem reg_write_other (v : BitVec s.W) (h : q ≠ r) : (s.write r v).reg q = s.reg q := by
  have := reg_write s r q v
  rwa [if_neg h] at this

@[simp] theorem uval_write_same (v : BitVec s.W) : (s.write r v).uval r = v.toNat :=
  congrArg BitVec.toNat (reg_write_same s r v)

theorem uval_write_other (v : BitVec s.W) (h : q ≠ r) : (s.write r v).uval q = s.uval q :=
  congrArg BitVec.toNat (reg_write_other s r q v h)

@[simp] theorem sval_write_same (v : BitVec s.W) : (s.write r v).sval r = sval v :=
  congrArg sval (reg_write_same s r v)

theorem sval_write_other (v : BitVec s.W) (h : q ≠ r) : (s.write r v).sval q = s.sval q :=
  congrArg sval (reg_write_other s r q v h)

@[simp] theorem val_write_same (S : Bool) (v : BitVec s.W) : (s.write r v).val S r = val S v :=
  congrArg (val S) (reg_write_same s r v)

theorem val_write_other (S : Bool) (v : BitVec s.W) (h : q ≠ r) : (s.write r v).val S q = s.val S q :=
  congrArg (val S) (reg_write_other s r q v h)

/-! ## `State.setOv` -/

@[simp] theorem setOv_n (b : Bool) : (s.setOv b).n = s.n := rfl
@[simp] theorem setOv_ov (b : Bool) : (s.setOv b).ov = b := rfl
@[simp] theorem setOv_err (b : Bool) : (s.setOv b).err = s.err := rfl
@[simp] theorem setOv_errcmd (b : Bool) : (s.setOv b).errcmd = s.errcmd := rfl
@[simp] theorem setOv_queue (b : Bool) : (s.setOv b).queue = s.queue := rfl
@[simp] theorem setOv_replies (b : Bool) : (s.setOv b).replies = s.replies := rfl
@[simp] theorem setOv_reg (b : Bool) : (s.setOv b).reg r = s.reg r := rfl
@[simp] theorem setOv_uval (b : Bool) : (s.setOv b).uval r = s.uval r := rfl
@[simp] theorem setOv_sval (b : Bool) : (s.setOv b).sval r = s.sval r := rfl
@[simp] theorem setOv_val (S b : Bool) : (s.setOv b).val S r = s.val S r := rfl

/-! ## `State.writeWord` -/

@[simp] theorem writeWord_n (j : Nat) (d : Word) : (s.writeWord r j d).n = s.n := rfl
@[simp] theorem writeWord_ov (j : Nat) (d : Word) : (s.writeWord r j d).ov = s.ov := rfl
@[simp] theorem writeWord_err (j : Nat) (d : Word) : (s.writeWord r j d).err = s.err := rfl
@[simp] theorem writeWord_errcmd (j : Nat) (d : Word) : (s.writeWord r j d).errcmd = s.errcmd := rfl
@[simp] theorem writeWord_queue (j : Nat) (d : Word) : (s.writeWord r j d).queue = s.queue := rfl
@[simp] theorem writeWord_replies (j : Nat) (d : Word) : (s.writeWord r j d).replies = s.replies := rfl

/-! ## Error capture, clear, reset -/

section
variable (e : CommandError) (c : CmdWord)

@[simp] theorem captureError_n : (captureError e c s).n = s.n := rfl
@[simp] theorem captureError_ov : (captureError e c s).ov = s.ov := rfl
@[simp] theorem captureError_err : (captureError e c s).err = errorCode e := rfl
@[simp] theorem captureError_errcmd : (captureError e c s).errcmd = c := rfl
@[simp] theorem captureError_queue : (captureError e c s).queue = s.queue := rfl
@[simp] theorem captureError_replies : (captureError e c s).replies = s.replies := rfl
@[simp] theorem captureError_reg : (captureError e c s).reg r = s.reg r := rfl
@[simp] theorem captureError_uval : (captureError e c s).uval r = s.uval r := rfl

end

@[simp] theorem clearStatus_n : (clearStatus s).n = s.n := rfl
@[simp] theorem clearStatus_ov : (clearStatus s).ov = false := rfl
@[simp] theorem clearStatus_err : (clearStatus s).err = 0#4 := rfl
@[simp] theorem clearStatus_errcmd : (clearStatus s).errcmd = s.errcmd := rfl
@[simp] theorem clearStatus_queue : (clearStatus s).queue = s.queue := rfl
@[simp] theorem clearStatus_replies : (clearStatus s).replies = s.replies := rfl
@[simp] theorem clearStatus_reg : (clearStatus s).reg r = s.reg r := rfl
@[simp] theorem clearStatus_uval : (clearStatus s).uval r = s.uval r := rfl

@[simp] theorem resetAt_n (n : Width) : (State.resetAt n).n = n := rfl
@[simp] theorem resetAt_ov (n : Width) : (State.resetAt n).ov = false := rfl
@[simp] theorem resetAt_err (n : Width) : (State.resetAt n).err = 0#4 := rfl
@[simp] theorem resetAt_errcmd (n : Width) : (State.resetAt n).errcmd = 0#32 := rfl
@[simp] theorem resetAt_queue (n : Width) : (State.resetAt n).queue = [] := rfl
@[simp] theorem resetAt_replies (n : Width) : (State.resetAt n).replies = [] := rfl
@[simp] theorem resetAt_reg (n : Width) : (State.resetAt n).reg r = 0#n.bits := by
  simp [State.reg, State.resetAt]
@[simp] theorem resetAt_uval (n : Width) : (State.resetAt n).uval r = 0 :=
  (congrArg BitVec.toNat (resetAt_reg r n)).trans (BitVec.toNat_ofNat _ _ |>.trans (Nat.zero_mod _))

@[simp] theorem resetEngine_n : (resetEngine s).n = s.n := rfl
@[simp] theorem resetEngine_ov : (resetEngine s).ov = false := rfl
@[simp] theorem resetEngine_err : (resetEngine s).err = 0#4 := rfl
@[simp] theorem resetEngine_errcmd : (resetEngine s).errcmd = 0#32 := rfl
@[simp] theorem resetEngine_queue : (resetEngine s).queue = s.queue := rfl
@[simp] theorem resetEngine_replies : (resetEngine s).replies = s.replies := rfl
@[simp] theorem resetEngine_uval : (resetEngine s).uval r = 0 := resetAt_uval r s.n

/-! ## The host's lists -/

@[simp] theorem withQueue_uval (l : List HostInput) : ({ s with queue := l } : State).uval r = s.uval r := rfl
@[simp] theorem withQueue_reg (l : List HostInput) : ({ s with queue := l } : State).reg r = s.reg r := rfl
@[simp] theorem withReplies_uval (l : List Word) : ({ s with replies := l } : State).uval r = s.uval r := rfl

/-- A register is its unsigned value. -/
theorem reg_eq_of_uval {s : State} {r : Reg} {v : BitVec s.W} (h : s.uval r = v.toNat) : s.reg r = v :=
  BitVec.eq_of_toNat_eq h

/-- Two states of one engine with the same fields and the same register values are the same state. -/
theorem state_ext {s t : State} (hn : t.n = s.n) (hx : ∀ r, t.uval r = s.uval r) (hov : t.ov = s.ov) (herr : t.err = s.err)
    (hcmd : t.errcmd = s.errcmd) (hq : t.queue = s.queue) (hr : t.replies = s.replies) : t = s := by
  cases s; cases t
  simp only at hn hov herr hcmd hq hr
  subst hn hov herr hcmd hq hr
  congr 1
  ext i hi : 1
  exact BitVec.eq_of_toNat_eq (hx ⟨i, hi⟩)

end Sys2Proof.Machine
end

