-- ==== Sys2Proof/Laws/Values.lean ====
section
/-! SUPPORT. The readings of a bit pattern, the integer operators and the word lists, as arithmetic on integers: one lemma for
each function of Machine/Operands.lean and Machine/Flags.lean. -/

namespace Sys2Proof.Machine

/-! ## Readings (00_scope.md R11, R12) -/

theorem uval_lt {w : Nat} (v : BitVec w) : uval v < 2 ^ w := v.isLt

theorem uval_inj {w : Nat} {u v : BitVec w} (h : uval u = uval v) : u = v := BitVec.eq_of_toNat_eq h

theorem uval_bits {w : Nat} (n : Int) : (uval (bits w n) : Int) = n % 2 ^ w := by
  simp only [uval, bits, BitVec.toNat_ofInt]
  have h : (0 : Int) < 2 ^ w := by positivity
  rw [Int.toNat_of_nonneg (by exact_mod_cast Int.emod_nonneg n h.ne')]
  push_cast
  rfl

theorem uval_bits_natCast {w : Nat} (n : Nat) : uval (bits w n) = n % 2 ^ w := by
  have := uval_bits (w := w) n
  exact_mod_cast this

/-- The signed reading is the library's. -/
theorem sval_eq_toInt {w : Nat} (v : BitVec w) : sval v = v.toInt := by
  have hmsb : v.getLsbD (w - 1) = v.msb := by simp [BitVec.msb_eq_getLsbD_last]
  rw [sval, uval, hmsb, BitVec.toInt_eq_msb_cond]
  cases v.msb <;> simp

theorem val_true {w : Nat} (v : BitVec w) : val true v = v.toInt := sval_eq_toInt v

theorem val_false {w : Nat} (v : BitVec w) : val false v = (v.toNat : Int) := rfl

/-- Both readings are congruent to the unsigned one. -/
theorem val_emod {w : Nat} (S : Bool) (v : BitVec w) : val S v % 2 ^ w = uval v := by
  have hlt := uval_lt v
  cases S
  · exact Int.emod_eq_of_lt (by simp [val]) (by rw [val_false]; exact_mod_cast hlt)
  · have : val true v = (uval v : Int) - ((v.getLsbD (w - 1)).toNat : Int) * 2 ^ w := by simp [val, sval]
    rw [this, Int.sub_mul_emod_self_right]
    exact Int.emod_eq_of_lt (by positivity) (by exact_mod_cast hlt)

/-- Taking a reading back to bits gives the pattern (41_construction.md R103). -/
theorem bits_val {w : Nat} (S : Bool) (v : BitVec w) : bits w (val S v) = v := by
  apply uval_inj
  have := uval_bits (w := w) (val S v)
  rw [val_emod] at this
  exact_mod_cast this

theorem bits_eq_iff {w : Nat} (m n : Int) : bits w m = bits w n ↔ m % 2 ^ w = n % 2 ^ w := by
  constructor
  · intro h
    rw [← uval_bits, ← uval_bits, h]
  · intro h
    apply uval_inj
    have : (uval (bits w m) : Int) = uval (bits w n) := by rw [uval_bits, uval_bits, h]
    exact_mod_cast this

/-- The range of the signed reading. -/
theorem sval_range {w : Nat} (hw : 0 < w) (v : BitVec w) : -(2 ^ (w - 1) : Int) ≤ sval v ∧ sval v < 2 ^ (w - 1) := by
  rw [sval_eq_toInt]
  obtain ⟨k, rfl⟩ : ∃ k, w = k + 1 := ⟨w - 1, by omega⟩
  have h1 := BitVec.le_toInt v
  have h2 := BitVec.toInt_lt (x := v)
  simp only [Nat.add_sub_cancel] at *
  exact ⟨by exact_mod_cast h1, by exact_mod_cast h2⟩

theorem fits_iff (S : Bool) (w : Nat) (n : Int) : fits S w n = true ↔
    if S = true then -(2 ^ (w - 1) : Int) ≤ n ∧ n < 2 ^ (w - 1) else 0 ≤ n ∧ n < 2 ^ w := by
  cases S <;> simp [fits]

theorem overflow_iff (S : Bool) (w : Nat) (n : Int) : overflow S w n = true ↔
    ¬ if S = true then -(2 ^ (w - 1) : Int) ≤ n ∧ n < 2 ^ (w - 1) else 0 ≤ n ∧ n < 2 ^ w := by
  rw [overflow, ← fits_iff]
  simp

/-- Every reading fits. -/
theorem fits_val {w : Nat} (hw : 0 < w) (S : Bool) (v : BitVec w) : fits S w (val S v) = true := by
  rw [fits_iff]
  cases S
  · simp only [val_false, Bool.false_eq_true, if_false]
    exact ⟨by positivity, by exact_mod_cast v.isLt⟩
  · simpa [val] using sval_range hw v

/-- A number that fits is the reading of its bits (00_scope.md R12). -/
theorem val_bits_of_fits {w : Nat} (hw : 0 < w) {S : Bool} {n : Int} (h : fits S w n = true) : val S (bits w n) = n := by
  have hmod : val S (bits w n) % 2 ^ w = n % 2 ^ w := by rw [val_emod, uval_bits]
  have hv := (fits_iff S w _).1 (fits_val hw S (bits w n))
  have hn := (fits_iff S w n).1 h
  have h2 : (2 : Int) ^ w = 2 * 2 ^ (w - 1) := by
    rw [← pow_succ', Nat.sub_add_cancel hw]
  obtain ⟨k, hk⟩ := Int.dvd_of_emod_eq_zero (Int.emod_eq_emod_iff_emod_sub_eq_zero.1 hmod)
  have hP : (0 : Int) < 2 ^ (w - 1) := by positivity
  rw [h2] at hk hv hn
  have hlo : -1 < k := by
    by_contra hc
    cases S <;> simp only [Bool.false_eq_true, if_false, if_true] at hv hn <;> nlinarith
  have hhi : k < 1 := by
    by_contra hc
    cases S <;> simp only [Bool.false_eq_true, if_false, if_true] at hv hn <;> nlinarith
  obtain rfl : k = 0 := by omega
  linarith

/-- The exact sum or difference of bits agrees with the exact one modulo `2^W`; so does any polynomial. -/
theorem bits_emod {w : Nat} (n : Int) : bits w (n % 2 ^ w) = bits w n := by
  rw [bits_eq_iff, Int.emod_emod_of_dvd _ (dvd_refl _)]

/-! ## Integer operators (00_scope.md R13) -/

theorem tdiv_eq (a b : Int) : tdiv a b = Int.tdiv a b := by
  rw [tdiv]
  obtain ⟨n, rfl | rfl⟩ := a.eq_nat_or_neg <;> obtain ⟨m, rfl | rfl⟩ := b.eq_nat_or_neg <;>
    rcases Nat.eq_zero_or_pos n with rfl | hn <;> rcases Nat.eq_zero_or_pos m with rfl | hm <;>
    simp [Int.neg_tdiv, Int.tdiv_neg, Int.sign_neg, Int.sign_eq_one_of_pos, *]

theorem trem_eq (a b : Int) : trem a b = Int.tmod a b := by
  rw [trem, tdiv_eq, Int.tmod_def]

/-! ## Boundary patterns (00_scope.md R12) -/

theorem uval_minS_true {w : Nat} (hw : 0 < w) : uval (minS true w) = 2 ^ (w - 1) := by
  simp only [minS, if_true]
  rw [uval_bits_natCast]
  exact Nat.mod_eq_of_lt (Nat.pow_lt_pow_right (by omega) (by omega))

theorem sval_minS {w : Nat} (hw : 0 < w) : sval (minS true w) = -(2 ^ (w - 1) : Int) := by
  have h := val_bits_of_fits (S := true) (w := w) (n := -(2 ^ (w - 1) : Int)) hw
    ((fits_iff _ _ _).2 (by simp))
  have : minS true w = bits w (-(2 ^ (w - 1) : Int)) := by
    have h2 : (2 : Int) ^ w = 2 * 2 ^ (w - 1) := by rw [← pow_succ', Nat.sub_add_cancel hw]
    simp only [minS, if_true]
    rw [bits_eq_iff, Int.emod_eq_emod_iff_emod_sub_eq_zero]
    push_cast
    rw [show (2 : Int) ^ (w - 1) - -2 ^ (w - 1) = 2 ^ w by rw [h2]; ring]
    exact Int.emod_self
  rw [this]
  simpa [val] using h

/-- `a = min_S` exactly when its signed reading is the least one. -/
theorem eq_minS_iff {w : Nat} (hw : 0 < w) (a : BitVec w) : a = minS true w ↔ sval a = -(2 ^ (w - 1) : Int) := by
  constructor
  · rintro rfl
    exact sval_minS hw
  · intro h
    rw [← bits_val true a, ← bits_val true (minS true w)]
    simp only [val, if_true]
    rw [h, sval_minS hw]

/-- A reading is zero exactly when the pattern is. -/
theorem val_eq_zero_iff {w : Nat} (S : Bool) (v : BitVec w) : val S v = 0 ↔ uval v = 0 := by
  constructor
  · intro h
    have := val_emod S v
    rw [h] at this
    simpa using this.symm
  · intro h
    have : v = 0#w := uval_inj (by simpa [uval] using h)
    subst this
    cases S <;> simp [val, sval, uval]

/-! ## Word lists (00_scope.md R10) -/

@[simp] theorem toWords_length (k v : Nat) : (toWords k v).length = k := by
  induction k generalizing v with
  | zero => rfl
  | succ k ih => simp [toWords, ih]

theorem ofWords_lt (ws : List Word) : ofWords ws < 2 ^ (64 * ws.length) := by
  induction ws with
  | nil => simp [ofWords]
  | cons w ws ih =>
    have := w.isLt
    simp only [ofWords, List.length_cons, Nat.mul_succ, pow_add]
    nlinarith

theorem ofWords_toWords (k v : Nat) : ofWords (toWords k v) = v % 2 ^ (64 * k) := by
  induction k generalizing v with
  | zero => simp [toWords, ofWords, Nat.mod_one]
  | succ k ih =>
    simp only [toWords, ofWords, ih, BitVec.toNat_ofNat]
    rw [show 64 * (k + 1) = 64 + 64 * k by ring, pow_add, Nat.mod_mul]

theorem ofWords_toWords_of_lt {k v : Nat} (h : v < 2 ^ (64 * k)) : ofWords (toWords k v) = v := by
  rw [ofWords_toWords, Nat.mod_eq_of_lt h]

theorem toWords_ofWords (ws : List Word) : toWords ws.length (ofWords ws) = ws := by
  induction ws with
  | nil => rfl
  | cons w ws ih =>
    have hw := w.isLt
    simp only [List.length_cons, toWords, ofWords]
    congr 1
    · apply BitVec.eq_of_toNat_eq
      simp only [BitVec.toNat_ofNat, Nat.add_mul_mod_self_left]
      exact Nat.mod_eq_of_lt hw
    · rw [Nat.add_mul_div_left _ _ (by positivity), Nat.div_eq_of_lt hw, Nat.zero_add, ih]

theorem ofWords_append (us vs : List Word) : ofWords (us ++ vs) = ofWords us + 2 ^ (64 * us.length) * ofWords vs := by
  induction us with
  | nil => simp [ofWords]
  | cons u us ih =>
    simp only [List.cons_append, ofWords, ih, List.length_cons, Nat.mul_succ, pow_add]
    ring

@[simp] theorem ofWords_replicate_zero (k : Nat) : ofWords (List.replicate k 0#64) = 0 := by
  induction k with
  | zero => rfl
  | succ k ih => simp [List.replicate_succ, ofWords, ih]

/-- Word `j` of a number's word list. -/
theorem getD_toWords (k v j : Nat) (h : j < k) : ((toWords k v).getD j 0#64).toNat = v / 2 ^ (64 * j) % 2 ^ 64 := by
  induction k generalizing v j with
  | zero => omega
  | succ k ih =>
    cases j with
    | zero => simp [toWords]
    | succ j =>
      simp only [toWords, List.getD_cons_succ]
      rw [ih (v / 2 ^ 64) j (by omega), Nat.div_div_eq_div_mul, ← pow_add]
      congr 3
      ring

/-! ## Words of a pattern (00_scope.md R10, 20_memory.md R54) -/

theorem wordOf_toNat {w : Nat} (v : BitVec w) (j : Nat) : (wordOf v j).toNat = uval v / 2 ^ (64 * j) % 2 ^ 64 := by
  simp only [wordOf, BitVec.extractLsb'_toNat, Nat.shiftRight_eq_div_pow]; rfl

/-- A word after a word write. -/
theorem wordOf_withWord {w : Nat} (v : BitVec w) (j j' : Nat) (d : Word) (hj : 64 * j + 64 ≤ w) (hj' : 64 * j' + 64 ≤ w) :
    wordOf (withWord v j d) j' = if j' = j then d else wordOf v j' := by
  apply BitVec.eq_of_getLsbD_eq
  intro i hi
  have h1 : 64 * j' + i < w := by omega
  simp only [wordOf, withWord, zext, BitVec.getLsbD_extractLsb', BitVec.getLsbD_or, BitVec.getLsbD_and, BitVec.getLsbD_not,
    BitVec.getLsbD_shiftLeft, BitVec.getLsbD_setWidth, BitVec.getLsbD_allOnes, hi, h1, decide_true, Bool.true_and]
  by_cases hjj : j' = j
  · subst hjj
    have h2 : i < w := by omega
    simp [hi, h2]
  · rw [if_neg hjj]
    rcases Nat.lt_or_gt_of_ne hjj with hlt | hgt
    · have h2 : 64 * j' + i < 64 * j := by omega
      simp [h2, hi]
    · have h2 : ¬ 64 * j' + i < 64 * j := by omega
      have h3 : ¬ 64 * j' + i - 64 * j < 64 := by omega
      have h4 : d.getLsbD (64 * j' + i - 64 * j) = false := BitVec.getLsbD_of_ge _ _ (by omega)
      have h5 : 64 * j' + i - 64 * j < w := by omega
      simp [h2, h3, h4, h5, hi]

end Sys2Proof.Machine
end

