-- ==== Sys2Proof/Laws/Ops.lean ====
section
/-! SUPPORT. What each shared operation can do, said once: completing a command, running a command word, the port and a step.
Later proofs cite these instead of unfolding the machine. -/

namespace Sys2Proof.Machine

/-! ## Widths -/

theorem words_pos (n : Width) : 0 < n.words := by cases n <;> decide

theorem words_le (n : Width) : n.words ≤ 8 := by cases n <;> decide

theorem W_pos (s : State) : 0 < s.W := Nat.mul_pos (by decide) (words_pos s.n)

/-! ## Completing a command -/

/-- What a one-destination command leaves: the result and the flag, and nothing else changed. -/
theorem complete_spec (s : State) (rd : Reg) (v : BitVec s.W) (ov : Bool) :
    ∃ t, complete s rd v ov = .next t ∧ t.n = s.n ∧ t.uval rd = uval v ∧ t.sval rd = sval v ∧ (∀ S, t.val S rd = val S v) ∧
      t.ov = ov ∧ t.err = s.err ∧ t.errcmd = s.errcmd ∧ t.queue = s.queue ∧ t.replies = s.replies ∧
      ∀ r, r ∉ [rd] → t.uval r = s.uval r :=
  ⟨_, rfl, rfl, uval_write_same s rd v, sval_write_same s rd v, fun S => val_write_same s rd S v, rfl, rfl, rfl, rfl, rfl,
    fun r h => uval_write_other s rd r v (by simpa using h)⟩

/-- What a two-destination command leaves. -/
theorem complete2_spec (s : State) (rd rd2 : Reg) (v v2 : BitVec s.W) (ov : Bool) (hne : rd ≠ rd2) :
    ∃ t, complete2 s rd v rd2 v2 ov = .next t ∧ t.n = s.n ∧ t.uval rd = uval v ∧ t.uval rd2 = uval v2 ∧
      (∀ S, t.val S rd = val S v) ∧ (∀ S, t.val S rd2 = val S v2) ∧
      t.ov = ov ∧ t.err = s.err ∧ t.errcmd = s.errcmd ∧ t.queue = s.queue ∧ t.replies = s.replies ∧
      ∀ r, r ∉ [rd, rd2] → t.uval r = s.uval r := by
  refine ⟨_, rfl, rfl, ?_, uval_write_same (s.write rd v) rd2 v2, fun S => ?_,
    fun S => val_write_same (s.write rd v) rd2 S v2, rfl, rfl, rfl, rfl, rfl, fun r h => ?_⟩
  · exact (uval_write_other (s.write rd v) rd2 rd v2 hne).trans (uval_write_same s rd v)
  · exact (val_write_other (s.write rd v) rd2 rd S v2 hne).trans (val_write_same s rd S v)
  · simp only [List.mem_cons, List.not_mem_nil, or_false, not_or] at h
    exact (uval_write_other (s.write rd v) rd2 r v2 h.2).trans (uval_write_other s rd r v h.1)

/-- A two-destination command whose destinations differ runs. -/
theorem guardDest_of_ne (i : Instr) {rd rd2 : Reg} (s : State) (run : Result) (h : rd ≠ rd2) :
    guardDest i rd rd2 s run = run := if_neg h

/-- One whose destinations are the same is captured. -/
theorem guardDest_of_eq (i : Instr) (rd : Reg) (s : State) (run : Result) :
    guardDest i rd rd s run = .next (captureError .destConflict (encode i) s) := if_pos rfl

/-! ## Running a command -/

/-- Every command completes: it answers a next state, leaves the width and the host's lists alone, and leaves the error
registers alone unless it names one destination twice. -/
theorem exec_spec (i : Instr) (s : State) : ∃ t, exec i s = .next t ∧ t.n = s.n ∧ t.queue = s.queue ∧
    t.replies = s.replies ∧
    ((WellFormed i = true ∧ t.err = s.err ∧ t.errcmd = s.errcmd) ∨
      (WellFormed i = false ∧ t = captureError .destConflict (encode i) s)) := by
  have two : ∀ (i : Instr) (rd rd2 : Reg) (v v2 : BitVec s.W) (ov : Bool), WellFormed i = decide (rd ≠ rd2) →
      ∃ t, guardDest i rd rd2 s (complete2 s rd v rd2 v2 ov) = .next t ∧ t.n = s.n ∧ t.queue = s.queue ∧
        t.replies = s.replies ∧ ((WellFormed i = true ∧ t.err = s.err ∧ t.errcmd = s.errcmd) ∨
          (WellFormed i = false ∧ t = captureError .destConflict (encode i) s)) := by
    intro i rd rd2 v v2 ov hw
    by_cases h : rd = rd2
    · subst h
      exact ⟨_, guardDest_of_eq i rd s _, rfl, rfl, rfl, .inr ⟨by simp [hw], rfl⟩⟩
    · exact ⟨_, guardDest_of_ne i s _ h, rfl, rfl, rfl, .inl ⟨by simp [hw, h], rfl, rfl⟩⟩
  cases i with
  | mulfw S rd rd2 rs1 rs2 => exact two _ _ _ _ _ _ rfl
  | divrem S rd rd2 rs1 rs2 => exact two _ _ _ _ _ _ rfl
  | divfw S rd rd2 rs1 rs2 rs3 => exact two _ _ _ _ _ _ rfl
  | _ => exact ⟨_, rfl, rfl, rfl, rfl, .inl ⟨rfl, rfl, rfl⟩⟩

/-- Running a command word: discarded, captured, or run. -/
theorem runCommand_cases (c : CmdWord) (s : State) :
    (s.err ≠ 0#4 ∧ runCommand c s = .next s) ∨
    (s.err = 0#4 ∧ ∃ e, decode c = .error e ∧ runCommand c s = .next (captureError e c s)) ∨
    (s.err = 0#4 ∧ ∃ i, decode c = .ok i ∧ runCommand c s = exec i s) := by
  by_cases h : s.err = 0#4
  · cases hd : decode c with
    | error e => exact .inr (.inl ⟨h, e, rfl, by simp [runCommand, h, hd]⟩)
    | ok i => exact .inr (.inr ⟨h, i, rfl, by simp [runCommand, h, hd]⟩)
  · exact .inl ⟨h, by simp [runCommand, h]⟩

theorem runCommand_of_error {c : CmdWord} {s : State} {e : CommandError} (h : s.err = 0#4) (hd : decode c = .error e) :
    runCommand c s = .next (captureError e c s) := by simp [runCommand, h, hd]

theorem runCommand_of_ok {c : CmdWord} {s : State} {i : Instr} (h : s.err = 0#4) (hd : decode c = .ok i) :
    runCommand c s = exec i s := by simp [runCommand, h, hd]

/-! ## The register map -/

theorem offWord_toNat (r : Reg) {j : Nat} (h : j < 8) : (offWord r j).toNat = 0x100 + 0x40 * r.val + 8 * j := by
  have := r.isLt
  simp only [offWord, BitVec.toNat_ofNat]
  omega

/-- The map gives an operand word for the words an operand has, at their offsets. -/
theorem portReg_offWord (n : Width) (r : Reg) {j : Nat} (h : j < n.words) :
    portReg n (offWord r j) = some (.operand r j) := by
  have hj : j < 8 := lt_of_lt_of_le h (words_le n)
  have ht := offWord_toNat r hj
  have hr := r.isLt
  have ne : ∀ k : Nat, k < 0x100 → offWord r j ≠ BitVec.ofNat 12 k := by
    intro k hk he
    rw [he, BitVec.toNat_ofNat] at ht
    omega
  have hslot : (offWord r j).toNat / 0x40 = 4 + r.val := by omega
  have hw : (offWord r j).toNat % 0x40 / 8 = j := by omega
  simp only [portReg, offId, offConfig, offStatus, offErrcmd, offCmd, if_neg (ne 0x000 (by decide)),
    if_neg (ne 0x008 (by decide)), if_neg (ne 0x010 (by decide)), if_neg (ne 0x018 (by decide)), if_neg (ne 0x020 (by decide)),
    hslot, hw, h, if_true]
  rw [dif_pos (by omega)]
  congr 2
  exact Fin.ext (by simp)

/-- What the map can give, and for which offset. -/
theorem portReg_cases {n : Width} {off : Offset} {p : PortReg} (h : portReg n off = some p) (ha : off.toNat % 8 = 0) :
    (p = .id ∧ off = 0x000#12) ∨ (p = .config ∧ off = 0x008#12) ∨ (p = .status ∧ off = 0x010#12) ∨
    (p = .errcmd ∧ off = 0x018#12) ∨ (p = .cmd ∧ off = 0x020#12) ∨
    ∃ r j, j < n.words ∧ p = .operand r j ∧ off = offWord r j := by
  rw [portReg] at h
  by_cases h0 : off = offId
  · rw [if_pos h0] at h; cases h; exact .inl ⟨rfl, h0⟩
  by_cases h1 : off = offConfig
  · rw [if_neg h0, if_pos h1] at h; cases h; exact .inr (.inl ⟨rfl, h1⟩)
  by_cases h2 : off = offStatus
  · rw [if_neg h0, if_neg h1, if_pos h2] at h; cases h; exact .inr (.inr (.inl ⟨rfl, h2⟩))
  by_cases h3 : off = offErrcmd
  · rw [if_neg h0, if_neg h1, if_neg h2, if_pos h3] at h; cases h; exact .inr (.inr (.inr (.inl ⟨rfl, h3⟩)))
  by_cases h4 : off = offCmd
  · rw [if_neg h0, if_neg h1, if_neg h2, if_neg h3, if_pos h4] at h; cases h
    exact .inr (.inr (.inr (.inr (.inl ⟨rfl, h4⟩))))
  rw [if_neg h0, if_neg h1, if_neg h2, if_neg h3, if_neg h4] at h
  by_cases hs : 4 ≤ off.toNat / 0x40 ∧ off.toNat / 0x40 < 12
  · by_cases hj : off.toNat % 0x40 / 8 < n.words
    · simp only [hs, hj, and_self, dif_pos, if_true] at h
      cases h
      refine .inr (.inr (.inr (.inr (.inr ⟨_, _, hj, rfl, ?_⟩))))
      apply BitVec.eq_of_toNat_eq
      rw [offWord_toNat _ (lt_of_lt_of_le hj (words_le n))]
      show off.toNat = 0x100 + 0x40 * (off.toNat / 64 - 4) + 8 * (off.toNat % 64 / 8)
      omega
    · simp [hj] at h
  · simp [hs] at h

/-! ## Transactions -/

theorem aligned_iff (off : Offset) : off.extractLsb' 0 3 = 0#3 ↔ off.toNat % 8 = 0 := by
  rw [← BitVec.toNat_inj]
  simp

/-- An admitted transaction runs. -/
theorem admit_of_mapped {n : Width} {off : Offset} {p : PortReg} (run : PortReg → Result) (ha : off.toNat % 8 = 0)
    (hp : portReg n off = some p) : admitTxn n 64 off run = run p := by
  simp [admitTxn, (aligned_iff off).2 ha, hp]

/-- A transaction is admitted only when it is 64 bits wide, aligned and mapped. -/
theorem admit_cases (n : Width) (width : Nat) (off : Offset) (run : PortReg → Result) :
    (∃ reason, admitTxn n width off run = .refused reason ∧
      ¬ (width = 64 ∧ off.toNat % 8 = 0 ∧ (portReg n off).isSome)) ∨
    ∃ p, width = 64 ∧ off.toNat % 8 = 0 ∧ portReg n off = some p ∧ admitTxn n width off run = run p := by
  by_cases hw : width = 64
  · by_cases ha : off.toNat % 8 = 0
    · cases hp : portReg n off with
      | none => exact .inl ⟨_, by simp [admitTxn, hw, (aligned_iff off).2 ha, hp]; rfl, by simp⟩
      | some p => exact .inr ⟨p, hw, ha, rfl, by subst hw; exact admit_of_mapped run ha hp⟩
    · exact .inl ⟨_, by simp [admitTxn, hw, mt (aligned_iff off).1 ha]; rfl, by simp [ha]⟩
  · exact .inl ⟨_, by simp [admitTxn, hw]; rfl, by simp [hw]⟩

/-- A write to the port answers a next state, whatever it names. -/
theorem writePort_next (p : PortReg) (data : Word) (s : State) : ∃ t, writePort p data s = .next t := by
  cases p with
  | cmd =>
    rcases runCommand_cases (commandWord data) s with ⟨_, h⟩ | ⟨_, e, _, h⟩ | ⟨_, i, _, h⟩
    · exact ⟨_, h⟩
    · exact ⟨_, h⟩
    · obtain ⟨t, ht, _⟩ := exec_spec i s
      exact ⟨t, h.trans ht⟩
  | _ => exact ⟨_, rfl⟩

theorem commandWord_eq (data : Word) : commandWord data = BitVec.ofNat 32 data.toNat := by
  apply BitVec.eq_of_toNat_eq
  simp [commandWord]

/-! ## One step -/

theorem step_of_read {s : State} {off : Offset} {rest : List HostInput} {p : PortReg}
    (hq : s.queue = .txn (.read 64 off) :: rest) (ha : off.toNat % 8 = 0) (hp : portReg s.n off = some p) :
    step s = .next { s with queue := rest, replies := s.replies ++ [readPort s p] } := by
  simp only [step, hq, applyInput, transact]
  exact admit_of_mapped _ ha hp

theorem step_of_write {s : State} {off : Offset} {data : Word} {rest : List HostInput} {p : PortReg}
    (hq : s.queue = .txn (.write 64 off data) :: rest) (ha : off.toNat % 8 = 0) (hp : portReg s.n off = some p) :
    step s = writePort p data { s with queue := rest } := by
  simp only [step, hq, applyInput, transact]
  exact admit_of_mapped _ ha hp

theorem step_of_reset {s : State} {dropped : List Txn} {rest : List HostInput} (hq : s.queue = .reset dropped :: rest) :
    step s = .next (resetEngine { s with queue := rest }) := by
  simp only [step, hq, applyInput]

theorem step_of_cmd {s : State} {data : Word} {rest : List HostInput}
    (hq : s.queue = .txn (.write 64 0x020#12 data) :: rest) :
    step s = runCommand (BitVec.ofNat 32 data.toNat) { s with queue := rest } := by
  rw [step_of_write hq (p := .cmd) (by decide) rfl, ← commandWord_eq]
  rfl

/-- Everything a step can do when it answers a next state: idle, a read, a write to the port (each kind), or the reset input. -/
theorem step_cases {s t : State} (h : step s = .next t) :
    (s.queue = [] ∧ t = s) ∨
    (∃ off rest p, s.queue = .txn (.read 64 off) :: rest ∧ off.toNat % 8 = 0 ∧ portReg s.n off = some p ∧
      t = { s with queue := rest, replies := s.replies ++ [readPort s p] }) ∨
    (∃ off data rest, s.queue = .txn (.write 64 off data) :: rest ∧
      (off = 0x000#12 ∨ off = 0x008#12 ∨ off = 0x018#12) ∧ t = { s with queue := rest }) ∨
    (∃ data rest, s.queue = .txn (.write 64 0x010#12 data) :: rest ∧ t = clearStatus { s with queue := rest }) ∨
    (∃ data rest, s.queue = .txn (.write 64 0x020#12 data) :: rest ∧
      runCommand (BitVec.ofNat 32 data.toNat) { s with queue := rest } = .next t) ∨
    (∃ r j data rest, j < s.n.words ∧ s.queue = .txn (.write 64 (offWord r j) data) :: rest ∧
      t = State.writeWord { s with queue := rest } r j data) ∨
    (∃ dropped rest, s.queue = .reset dropped :: rest ∧ t = resetEngine { s with queue := rest }) := by
  cases hq : s.queue with
  | nil =>
    simp only [step, hq] at h
    cases h
    exact .inl ⟨rfl, rfl⟩
  | cons input rest =>
    cases input with
    | reset dropped =>
      rw [step_of_reset hq] at h
      cases h
      exact .inr (.inr (.inr (.inr (.inr (.inr ⟨dropped, rest, rfl, rfl⟩)))))
    | txn tx =>
      cases tx with
      | read width off =>
        simp only [step, hq, applyInput, transact] at h
        rcases admit_cases s.n width off (fun p =>
            .next { { s with queue := rest } with replies := s.replies ++ [readPort { s with queue := rest } p] }) with
          ⟨reason, hr, _⟩ | ⟨p, rfl, ha, hp, hr⟩
        · rw [hr] at h; cases h
        · rw [hr] at h
          cases h
          exact .inr (.inl ⟨off, rest, p, rfl, ha, hp, by cases p <;> rfl⟩)
      | write width off data =>
        simp only [step, hq, applyInput, transact] at h
        rcases admit_cases s.n width off (fun p => writePort p data { s with queue := rest }) with
          ⟨reason, hr, _⟩ | ⟨p, rfl, ha, hp, hr⟩
        · rw [hr] at h; cases h
        · rw [hr] at h
          rcases portReg_cases hp ha with ⟨rfl, rfl⟩ | ⟨rfl, rfl⟩ | ⟨rfl, rfl⟩ | ⟨rfl, rfl⟩ | ⟨rfl, rfl⟩ |
            ⟨r, j, hj, rfl, rfl⟩
          · cases h; exact .inr (.inr (.inl ⟨_, data, rest, rfl, .inl rfl, rfl⟩))
          · cases h; exact .inr (.inr (.inl ⟨_, data, rest, rfl, .inr (.inl rfl), rfl⟩))
          · cases h; exact .inr (.inr (.inr (.inl ⟨data, rest, rfl, rfl⟩)))
          · cases h; exact .inr (.inr (.inl ⟨_, data, rest, rfl, .inr (.inr rfl), rfl⟩))
          · rw [writePort, commandWord_eq] at h
            exact .inr (.inr (.inr (.inr (.inl ⟨data, rest, rfl, h⟩))))
          · cases h
            exact .inr (.inr (.inr (.inr (.inr (.inl ⟨r, j, data, rest, hj, rfl, rfl⟩)))))

/-! ## The later inputs -/

/-- A command does not look at the host's coming inputs. -/
theorem exec_withQueue (i : Instr) (s : State) (l : List HostInput) {t : State} (h : exec i s = .next t) :
    exec i { s with queue := l } = .next { t with queue := l } := by
  have two : ∀ (i : Instr) (rd rd2 : Reg) (v v2 : BitVec s.W) (ov : Bool),
      guardDest i rd rd2 s (complete2 s rd v rd2 v2 ov) = .next t →
      guardDest i rd rd2 { s with queue := l } (complete2 { s with queue := l } rd v rd2 v2 ov) = .next { t with queue := l } := by
    intro i rd rd2 v v2 ov h
    by_cases hd : rd = rd2
    · subst hd
      rw [guardDest_of_eq] at h ⊢
      cases h; rfl
    · rw [guardDest_of_ne _ _ _ hd] at h ⊢
      cases h; rfl
  cases i with
  | mulfw S rd rd2 rs1 rs2 => exact two _ _ _ _ _ _ h
  | divrem S rd rd2 rs1 rs2 => exact two _ _ _ _ _ _ h
  | divfw S rd rd2 rs1 rs2 rs3 => exact two _ _ _ _ _ _ h
  | _ => cases h; rfl

theorem runCommand_withQueue (c : CmdWord) (s : State) (l : List HostInput) {t : State} (h : runCommand c s = .next t) :
    runCommand c { s with queue := l } = .next { t with queue := l } := by
  rw [runCommand] at h ⊢
  change (if s.err ≠ 0#4 then _ else _) = _
  split at h
  · rename_i he; rw [if_pos he]; cases h; rfl
  · rename_i he
    rw [if_neg he]
    split at h
    · cases h; rfl
    · exact exec_withQueue _ s l h

/-- Running a command word leaves the host's coming inputs and the width alone. -/
theorem runCommand_queue {c : CmdWord} {s t : State} (h : runCommand c s = .next t) : t.queue = s.queue ∧ t.n = s.n := by
  rcases runCommand_cases c s with ⟨_, hr⟩ | ⟨_, e, _, hr⟩ | ⟨_, i, _, hr⟩
  · rw [hr] at h; cases h; exact ⟨rfl, rfl⟩
  · rw [hr] at h; cases h; exact ⟨rfl, rfl⟩
  · obtain ⟨u, hu, hn, hq, _⟩ := exec_spec i s
    rw [hr, hu] at h; cases h; exact ⟨hq, hn⟩

/-- One step performs the head of the list: what is left is the tail, and the tail does not matter. -/
theorem step_cons {s t : State} {input : HostInput} {rest : List HostInput} (more : List HostInput)
    (h : step { s with queue := input :: rest } = .next t) :
    t.queue = rest ∧ step { s with queue := input :: more } = .next { t with queue := more } := by
  cases input with
  | reset d => cases h; exact ⟨rfl, rfl⟩
  | txn tx =>
    cases tx with
    | read width off =>
      simp only [step, applyInput, transact] at h ⊢
      rcases admit_cases s.n width off (fun p =>
          .next { { s with queue := rest } with replies := s.replies ++ [readPort { s with queue := rest } p] }) with
        ⟨reason, hr, _⟩ | ⟨p, rfl, ha, hp, hr⟩
      · rw [hr] at h; cases h
      · rw [hr] at h
        cases h
        refine ⟨rfl, (admit_of_mapped _ ha hp).trans ?_⟩
        cases p <;> rfl
    | write width off data =>
      simp only [step, applyInput, transact] at h ⊢
      rcases admit_cases s.n width off (fun p => writePort p data { s with queue := rest }) with
        ⟨reason, hr, _⟩ | ⟨p, rfl, ha, hp, hr⟩
      · rw [hr] at h; cases h
      · rw [hr] at h
        rw [admit_of_mapped _ ha hp]
        cases p with
        | cmd => exact ⟨(runCommand_queue h).1, runCommand_withQueue _ { s with queue := rest } more h⟩
        | _ => cases h; exact ⟨rfl, rfl⟩

/-! ## Runs -/

theorem run_zero (s : State) : Host.Core.run Sys2Proof.core 0 s = .next s := rfl

/-- A run takes its first step and goes on. -/
theorem run_step {M : Host.Core} {s t : M.State} (k : Nat) (h : M.step s = .next t) : M.run (k + 1) s = M.run k t := by
  simp only [Host.Core.run, h]

/-- A run of at least one step that answers a next state took a first step. -/
theorem run_step_inv {M : Host.Core} {s u : M.State} {k : Nat} (h : M.run (k + 1) s = .next u) :
    ∃ t, M.step s = .next t ∧ M.run k t = .next u := by
  cases hs : M.step s with
  | next t => exact ⟨t, rfl, (run_step k hs).symm.trans h⟩
  | fault r => simp only [Host.Core.run, hs] at h; cases h
  | refused r => simp only [Host.Core.run, hs] at h; cases h

theorem run_succ {s t : State} (k : Nat) (h : step s = .next t) :
    Host.Core.run Sys2Proof.core (k + 1) s = Host.Core.run Sys2Proof.core k t := run_step (M := Sys2Proof.core) k h

theorem run_succ_inv {s u : State} {k : Nat} (h : Host.Core.run Sys2Proof.core (k + 1) s = .next u) :
    ∃ t, step s = .next t ∧ Host.Core.run Sys2Proof.core k t = .next u := run_step_inv (M := Sys2Proof.core) h

end Sys2Proof.Machine
end

