-- ==== Sys2Proof/Laws/PerInstr.lean ====
section
/-! SUPPORT. One fact about every command as syntax: its encoding lies in its row of the opcode map (30_encoding.md R73, R75). -/

namespace Sys2Proof.Laws.MatchesTable

/-- The row of a command: its match and its format (30_encoding.md R75). -/
def rowOf : Instr → Nat × Format
  | .mov _ _ _ => (0x01, .r1)
  | .ldi _ _ _ => (0x02, .i)
  | .add _ _ _ _ => (0x08, .r2)
  | .sub _ _ _ _ => (0x09, .r2)
  | .neg _ _ _ => (0x0A, .r1)
  | .mul _ _ _ _ => (0x10, .r2)
  | .mulfw _ _ _ _ _ => (0x11, .r2d)
  | .div _ _ _ _ => (0x18, .r2)
  | .rem _ _ _ _ => (0x19, .r2)
  | .divrem _ _ _ _ _ => (0x1A, .r2d)
  | .divfw _ _ _ _ _ _ => (0x1B, .r3d)
  | .not _ _ _ => (0x20, .r1)
  | .and _ _ _ _ => (0x21, .r2)
  | .or _ _ _ _ => (0x22, .r2)
  | .xor _ _ _ _ => (0x23, .r2)
  | .shl _ _ _ _ => (0x24, .r2)
  | .shr _ _ _ _ => (0x25, .r2)
  | .bswap _ _ _ => (0x26, .r1)
  | .cmp _ _ _ _ => (0x28, .r2)
  | .isz _ _ _ => (0x29, .r1)
  | .isneg _ _ _ => (0x2A, .r1)
  | .isodd _ _ _ => (0x2B, .r1)

/-- The command's word has its row's opcode, and every bit its format marks as zero is zero. -/
def Statement (i : Instr) : Prop :=
  (encode i).toNat % 64 = (rowOf i).1 ∧ encode i &&& (rowOf i).2.mustBeZero = 0#32

variable (S : Bool) (rd rd2 rs1 rs2 rs3 : Reg)

theorem bool_toNat_lt : S.toNat < 2 := by cases S <;> decide

/-- Format R1. -/
theorem statement_r1 (op : BitVec 6) : (packR 0 0 rs1 0 rd S op).toNat % 64 = op.toNat ∧
    packR 0 0 rs1 0 rd S op &&& Format.r1.mustBeZero = 0#32 := by
  have := op.isLt; have := rd.isLt; have := rs1.isLt; have := bool_toNat_lt S
  rw [mustBeZero_iff, packR_toNat]
  simp only [Fin.val_zero]
  omega

/-- Format R2. -/
theorem statement_r2 (op : BitVec 6) : (packR 0 rs2 rs1 0 rd S op).toNat % 64 = op.toNat ∧
    packR 0 rs2 rs1 0 rd S op &&& Format.r2.mustBeZero = 0#32 := by
  have := op.isLt; have := rd.isLt; have := rs1.isLt; have := rs2.isLt; have := bool_toNat_lt S
  rw [mustBeZero_iff, packR_toNat]
  simp only [Fin.val_zero]
  omega

/-- Format R2D. -/
theorem statement_r2d (op : BitVec 6) : (packR 0 rs2 rs1 rd2 rd S op).toNat % 64 = op.toNat ∧
    packR 0 rs2 rs1 rd2 rd S op &&& Format.r2d.mustBeZero = 0#32 := by
  have := op.isLt; have := rd.isLt; have := rd2.isLt; have := rs1.isLt; have := rs2.isLt; have := bool_toNat_lt S
  rw [mustBeZero_iff, packR_toNat]
  simp only [Fin.val_zero]
  omega

/-- Format R3D. -/
theorem statement_r3d (op : BitVec 6) : (packR rs3 rs2 rs1 rd2 rd S op).toNat % 64 = op.toNat ∧
    packR rs3 rs2 rs1 rd2 rd S op &&& Format.r3d.mustBeZero = 0#32 := by
  have := op.isLt; have := rd.isLt; have := rd2.isLt; have := rs1.isLt; have := rs2.isLt; have := rs3.isLt
  have := bool_toNat_lt S
  rw [mustBeZero_iff, packR_toNat]
  simp only
  omega

theorem mov : Statement (.mov S rd rs1) := statement_r1 S rd rs1 0x01#6
theorem ldi (imm : BitVec 16) : Statement (.ldi S rd imm) := by
  have := imm.isLt; have := rd.isLt; have := bool_toNat_lt S
  simp only [Statement, rowOf, encode]
  rw [mustBeZero_iff, packI_toNat]
  simp only [BitVec.toNat_ofNat]
  omega
theorem add : Statement (.add S rd rs1 rs2) := statement_r2 S rd rs1 rs2 0x08#6
theorem sub : Statement (.sub S rd rs1 rs2) := statement_r2 S rd rs1 rs2 0x09#6
theorem neg : Statement (.neg S rd rs1) := statement_r1 S rd rs1 0x0A#6
theorem mul : Statement (.mul S rd rs1 rs2) := statement_r2 S rd rs1 rs2 0x10#6
theorem mulfw : Statement (.mulfw S rd rd2 rs1 rs2) := statement_r2d S rd rd2 rs1 rs2 0x11#6
theorem div : Statement (.div S rd rs1 rs2) := statement_r2 S rd rs1 rs2 0x18#6
theorem rem : Statement (.rem S rd rs1 rs2) := statement_r2 S rd rs1 rs2 0x19#6
theorem divrem : Statement (.divrem S rd rd2 rs1 rs2) := statement_r2d S rd rd2 rs1 rs2 0x1A#6
theorem divfw : Statement (.divfw S rd rd2 rs1 rs2 rs3) := statement_r3d S rd rd2 rs1 rs2 rs3 0x1B#6
theorem not : Statement (.not S rd rs1) := statement_r1 S rd rs1 0x20#6
theorem and : Statement (.and S rd rs1 rs2) := statement_r2 S rd rs1 rs2 0x21#6
theorem or : Statement (.or S rd rs1 rs2) := statement_r2 S rd rs1 rs2 0x22#6
theorem xor : Statement (.xor S rd rs1 rs2) := statement_r2 S rd rs1 rs2 0x23#6
theorem shl : Statement (.shl S rd rs1 rs2) := statement_r2 S rd rs1 rs2 0x24#6
theorem shr : Statement (.shr S rd rs1 rs2) := statement_r2 S rd rs1 rs2 0x25#6
theorem bswap : Statement (.bswap S rd rs1) := statement_r1 S rd rs1 0x26#6
theorem cmp : Statement (.cmp S rd rs1 rs2) := statement_r2 S rd rs1 rs2 0x28#6
theorem isz : Statement (.isz S rd rs1) := statement_r1 S rd rs1 0x29#6
theorem isneg : Statement (.isneg S rd rs1) := statement_r1 S rd rs1 0x2A#6
theorem isodd : Statement (.isodd S rd rs1) := statement_r1 S rd rs1 0x2B#6

end Sys2Proof.Laws.MatchesTable
end

