-- ==== Sys2Proof/Tests/Slice0.lean ====
section
/-! SUPPORT. The model's own tests: the well-formedness check, decoding of words written out in the spec, one step of each
command, the host port, and a witness for the hypotheses of each statement. Expected results are the spec's own (the vectors
V1.1 to V8.10 and programs P1 to P7 of 95_test_vectors.md); each test names its vector. -/

namespace Sys2Proof.Tests

open Sys2Proof.Machine Sys2Proof.Spec

/-! ## Helpers -/

/-- The value `(w0, w1, w2)` of a vector for N = 3, word 0 first. -/
def v3 (w0 w1 w2 : Nat) : Nat := w0 + 2 ^ 64 * w1 + 2 ^ 128 * w2

/-- The word `~0`. -/
def ff : Nat := 2 ^ 64 - 1

/-- `min_S` for N = 3. -/
def min3 : Nat := 2 ^ 191

/-- All ones for N = 3, the value -1. -/
def neg1 : Nat := 2 ^ 192 - 1

/-- The value `-k` for N = 3. -/
def neg (k : Nat) : Nat := 2 ^ 192 - k

/-- A reset engine of width `n` in which `x[0]` to `x[3]` hold the given values. -/
def stN (n : Width) (a b c d : Nat) : State :=
  ((((State.resetAt n).write 0 (BitVec.ofNat _ a)).write 1 (BitVec.ofNat _ b)).write 2 (BitVec.ofNat _ c)).write 3
    (BitVec.ofNat _ d)

/-- The same for N = 3, with `x[2]` and `x[3]` zero. -/
def st (a b : Nat) : State := stN .n3 a b 0 0

/-- `st a b` with what the host does next. -/
def stQ (a b : Nat) (q : List HostInput) : State := { st a b with queue := q }

/-- `st a b` with a pending error and what the host does next. -/
def stE (a b : Nat) (q : List HostInput) : State := { st a b with err := 2#4, errcmd := 0x88#32, queue := q }

/-- A state in which `x[2]` holds `c`, and one in which `OV` is set. -/
def with2 (c : Nat) (q : List HostInput) : State := { stN .n3 0 0 c 0 with queue := q }
def withOv (q : List HostInput) : State := { st 0 0 with ov := true, queue := q }

/-- All ones for N = 6. -/
def ones6 : Nat := 2 ^ 192 * 2 ^ 192 - 1

/-- A host write and a host read of 64 bits. -/
def hw (off : Offset) (d : Word) : HostInput := .txn (.write 64 off d)
def hr (off : Offset) : HostInput := .txn (.read 64 off)

/-- The value of a register and the flag after one command. -/
def out (r : Reg) (i : Instr) (s : State) : Option (Nat × Bool) :=
  match exec i s with
  | .next t => some (t.uval r, t.ov)
  | _ => none

/-- The values of two registers and the flag after one command. -/
def out2 (r q : Reg) (i : Instr) (s : State) : Option (Nat × Nat × Bool) :=
  match exec i s with
  | .next t => some (t.uval r, t.uval q, t.ov)
  | _ => none

/-- `ERR`, `ERRCMD`, `OV`, `x[2]` and the data read so far, after one step. -/
def look (s : State) : Option (Nat × Nat × Bool × Nat × List Word) :=
  match step s with
  | .next t => some (t.err.toNat, t.errcmd.toNat, t.ov, t.uval 2, t.replies)
  | _ => none

/-- The command a word decodes to. -/
def dec (c : CmdWord) : Option Instr :=
  match decode c with
  | .ok i => some i
  | .error _ => none

/-- The error a word decodes to. -/
def decErr (c : CmdWord) : Option CommandError :=
  match decode c with
  | .ok _ => none
  | .error e => some e

/-- Whether the next step is refused. -/
def isRefused (s : State) : Bool :=
  match step s with
  | .refused _ => true
  | _ => false

/-- Whether the next step answers a next state. -/
def isNext (s : State) : Bool :=
  match step s with
  | .next _ => true
  | _ => false

/-! ## Well-formedness: the one check refuses a two-destination command that names one register twice (30_encoding.md R78) -/

theorem test_wellFormed_refuses_mulfw : WellFormed (.mulfw false 2 2 0 1) = false := by decide
theorem test_wellFormed_refuses_divrem : WellFormed (.divrem true 3 3 0 1) = false := by decide
theorem test_wellFormed_refuses_divfw : WellFormed (.divfw false 1 1 0 2 3) = false := by decide
theorem test_wellFormed_accepts : WellFormed (.mulfw false 0 1 0 1) = true ∧ WellFormed (.add true 7 7 7) = true := by decide

/-! ## Decoding: the words of the vectors, one for each command -/

theorem test_decode_mov : dec 0x00004201#32 = some (.mov false 2 1) := by decide -- V1.1
theorem test_decode_mov_ignores_S : dec 0x00004241#32 = some (.mov true 2 1) := by decide -- V1.2
theorem test_decode_ldi : dec 0xFFFE0342#32 = some (.ldi true 3 0xFFFE#16) := by decide -- V1.3
theorem test_decode_add : dec 0x00020208#32 = some (.add false 2 0 1) := by decide -- V2.1
theorem test_decode_sub : dec 0x00020249#32 = some (.sub true 2 0 1) := by decide -- V2.10
theorem test_decode_neg : dec 0x0000424A#32 = some (.neg true 2 1) := by decide -- V2.15
theorem test_decode_mul : dec 0x00020250#32 = some (.mul true 2 0 1) := by decide -- V3.1
theorem test_decode_mulfw : dec 0x00020811#32 = some (.mulfw false 0 1 0 1) := by decide -- V3.16
theorem test_decode_div : dec 0x00020218#32 = some (.div false 2 0 1) := by decide -- V4.1
theorem test_decode_rem : dec 0x00020259#32 = some (.rem true 2 0 1) := by decide -- V4.5
theorem test_decode_divrem : dec 0x0004081A#32 = some (.divrem false 0 1 0 2) := by decide -- V4.21
theorem test_decode_divfw : dec 0x00346C1B#32 = some (.divfw false 4 5 1 2 3) := by decide -- V4.22
theorem test_decode_not : dec 0x00000120#32 = some (.not false 1 0) := by decide -- V5.1
theorem test_decode_and : dec 0x00020221#32 = some (.and false 2 0 1) := by decide -- V5.2
theorem test_decode_or : dec 0x00020222#32 = some (.or false 2 0 1) := by decide -- V5.3
theorem test_decode_xor : dec 0x00024123#32 = some (.xor false 1 1 1) := by decide -- V5.5
theorem test_decode_shl : dec 0x00020224#32 = some (.shl false 2 0 1) := by decide -- V5.6
theorem test_decode_shr : dec 0x00020265#32 = some (.shr true 2 0 1) := by decide -- V5.14
theorem test_decode_bswap : dec 0x00004126#32 = some (.bswap false 1 1) := by decide -- V5.25
theorem test_decode_cmp : dec 0x00020268#32 = some (.cmp true 2 0 1) := by decide -- V6.2
theorem test_decode_isz : dec 0x00000129#32 = some (.isz false 1 0) := by decide -- V6.9
theorem test_decode_isneg : dec 0x0000016A#32 = some (.isneg true 1 0) := by decide -- V6.11
theorem test_decode_isodd : dec 0x0000012B#32 = some (.isodd false 1 0) := by decide -- V6.14

/-- Programs P2 and P3 write the words of other registers: `MULFW.u x6, x7, x1, x4`, `ADD.u x7, x7, x5`, `CMP.s x6, x2, x5`. -/
theorem test_decode_other_registers : dec 0x00087E11#32 = some (.mulfw false 6 7 1 4) ∧
    dec 0x000BC708#32 = some (.add false 7 7 5) ∧ dec 0x000A8668#32 = some (.cmp true 6 2 5) := by decide

theorem test_encode_divfw : encode (.divfw false 4 5 1 2 3) = 0x00346C1B#32 := by decide -- V4.22
theorem test_encode_ldi : encode (.ldi true 3 0xFFFE#16) = 0xFFFE0342#32 := by decide -- V1.3

/-! The errors of V7.1 to V7.12, in decode order. -/

/-- V7.1, V7.2, V7.3, V7.4. -/
theorem test_decode_illegalOpcode : decErr 0x00000000#32 = some .illegalOpcode ∧
    decErr 0x0000003F#32 = some .illegalOpcode ∧
    decErr 0x00000127#32 = some .illegalOpcode ∧
    decErr 0x000000BF#32 = some .illegalOpcode := by decide

/-- V7.5, V7.6, V7.7, V7.8, V7.10. -/
theorem test_decode_reservedField : decErr 0x00000088#32 = some .reservedField ∧
    decErr 0x00024201#32 = some .reservedField ∧
    decErr 0x00000802#32 = some .reservedField ∧
    decErr 0x00800008#32 = some .reservedField ∧
    decErr 0x00821211#32 = some .reservedField := by decide

/-- V7.9, V7.11, V7.12. -/
theorem test_decode_destConflict : decErr 0x00021211#32 = some .destConflict ∧
    decErr 0x00021B5A#32 = some .destConflict ∧
    decErr 0x0034091B#32 = some .destConflict := by decide

/-! ## The entry the host's checks use: a table row's bits decode and run as the first command after reset -/

theorem test_decodeTableWord : decodeTableWord 32 0x00020208 = some (.add false 2 0 1) ∧
    decodeTableWord 32 0 = none := by decide
theorem test_withFetchWord : look (State.reset.withFetchWord 32 0x00010202) = some (0, 0, false, 1, []) := by decide
theorem test_withFetchWord_error : look (State.reset.withFetchWord 32 0x00821211) = some (2, 0x00821211, false, 0, []) := by
  decide

/-! ## One step of each command -/

/-- V1.1. -/
theorem test_mov : out 2 (.mov false 2 1) (st 0 (v3 5 0 ff)) = some (v3 5 0 ff, false) := by decide
/-- V1.6. -/
theorem test_ldi_s : out 0 (.ldi true 0 0x8000#16) (st 0 0) = some (neg 32768, false) := by decide
/-- V1.5. -/
theorem test_ldi_u : out 3 (.ldi false 3 0xFFFF#16) (st 0 0) = some (0xFFFF, false) := by decide
/-- V2.1. -/
theorem test_add_carry : out 2 (.add false 2 0 1) (st (v3 ff ff 0) 3) = some (v3 2 0 1, false) := by decide
/-- V2.5. -/
theorem test_add_signed_overflow : out 2 (.add true 2 0 1) (st (min3 - 1) 1) = some (min3, true) := by decide
/-- V2.9. -/
theorem test_sub_borrow : out 2 (.sub false 2 0 1) (st 0 1) = some (neg1, true) := by decide
/-- V2.13. -/
theorem test_sub_signed : out 2 (.sub true 2 0 1) (st (min3 - 1) neg1) = some (min3, true) := by decide
/-- V2.16. -/
theorem test_neg_min : out 2 (.neg true 2 1) (st 0 min3) = some (min3, true) := by decide
/-- V2.19. -/
theorem test_neg_unsigned : out 2 (.neg false 2 1) (st 0 1) = some (neg1, true) := by decide
/-- V3.1. -/
theorem test_mul_signed : out 2 (.mul true 2 0 1) (st (v3 1 2 3) (neg 2)) =
    some (v3 0xFFFFFFFFFFFFFFFE 0xFFFFFFFFFFFFFFFB 0xFFFFFFFFFFFFFFF9, false) := by decide
/-- V3.8. -/
theorem test_mul_overflow : out 2 (.mul true 2 0 1) (st (v3 0 (2 ^ 63) 0) (v3 0 1 0)) = some (min3, true) := by decide
/-- V3.14. -/
theorem test_mulfw_negative : out2 2 3 (.mulfw true 2 3 0 1) (st (neg 2) 3) = some (neg1, neg 6, false) := by decide
/-- V3.16. -/
theorem test_mulfw_in_place : out2 0 1 (.mulfw false 0 1 0 1) (st neg1 2) = some (1, neg 2, false) := by decide
/-- V4.2. -/
theorem test_div_toward_zero : out 2 (.div true 2 0 1) (st (neg 7) 2) = some (neg 3, false) := by decide
/-- V4.12. -/
theorem test_div_min : out 2 (.div true 2 0 1) (st min3 neg1) = some (min3, true) := by decide
/-- V4.7. -/
theorem test_rem_sign : out 2 (.rem true 2 0 1) (st (neg 7) (neg 2)) = some (neg1, false) := by decide
/-- V4.10. -/
theorem test_rem_zero_divisor : out 2 (.rem true 2 0 1) (st (v3 1 2 3) 0) = some (v3 1 2 3, true) := by decide
/-- V4.21. -/
theorem test_divrem_in_place : out2 0 1 (.divrem false 0 1 0 2) (stN .n3 (v3 0 1 0) 0 10 0) =
    some (0x1999999999999999, 6, false) := by decide
/-- V4.14. -/
theorem test_divrem_min : out2 2 3 (.divrem true 2 3 0 1) (st min3 neg1) = some (min3, 0, true) := by decide
/-- V4.22. -/
theorem test_divfw : out2 4 5 (.divfw false 4 5 1 2 3) (stN .n3 0 (v3 1 2 3) (v3 27 18 0) (v3 5 14 29)) =
    some (v3 4 5 6, v3 1 1 1, false) := by decide
/-- V4.25. -/
theorem test_divfw_signed : out2 4 5 (.divfw true 4 5 1 2 3) (stN .n3 0 2 neg1 (neg 7)) = some (neg 3, neg1, false) := by decide
/-- V5.1. -/
theorem test_not : out 1 (.not false 1 0) (st (v3 0 ff 5) 0) = some (v3 ff 0 0xFFFFFFFFFFFFFFFA, false) := by decide
/-- V5.2. -/
theorem test_and : out 2 (.and false 2 0 1) (st (v3 240 0 0) (v3 60 ff 0)) = some (v3 48 0 0, false) := by decide
/-- V5.3. -/
theorem test_or : out 2 (.or false 2 0 1) (st (v3 240 0 0) (v3 60 ff 0)) = some (v3 252 ff 0, false) := by decide
/-- V5.4. -/
theorem test_xor : out 2 (.xor false 2 0 1) (st (v3 240 0 0) (v3 60 ff 0)) = some (v3 204 ff 0, false) := by decide
/-- V5.11. -/
theorem test_shl_negative_amount : out 2 (.shl false 2 0 1) (st 1 neg1) = some (min3, false) := by decide
/-- V5.13. -/
theorem test_shl_not_a_mask : out 2 (.shl false 2 0 1) (st (v3 1 2 3) min3) = some (v3 0 1 2, false) := by decide
/-- V5.17. -/
theorem test_shr_arithmetic : out 2 (.shr true 2 0 1) (st min3 128) = some (v3 (2 ^ 63) ff ff, false) := by decide
/-- V5.20. -/
theorem test_shr_logical : out 2 (.shr false 2 0 1) (st (v3 0 0 3) 63) = some (v3 0 6 0, false) := by decide
/-- V5.23. -/
theorem test_bswap_n2 : out 1 (.bswap false 1 0) (stN .n2 (0x0102030405060708 + 2 ^ 64 * 0x1112131415161718) 0 0 0) =
    some (0x1817161514131211 + 2 ^ 64 * 0x0807060504030201, false) := by decide
/-- V5.24. -/
theorem test_bswap_n3 : out 1 (.bswap false 1 0) (st (v3 0x0102030405060708 0x1112131415161718 0x2122232425262728) 0) =
    some (v3 0x2827262524232221 0x1817161514131211 0x0807060504030201, false) := by decide
/-- V6.3. -/
theorem test_cmp_signed : out 2 (.cmp true 2 0 1) (st min3 (min3 - 1)) = some (neg1, false) := by decide
/-- V6.4. -/
theorem test_cmp_unsigned : out 2 (.cmp false 2 0 1) (st min3 (min3 - 1)) = some (1, false) := by decide
/-- V6.10. -/
theorem test_isz : out 1 (.isz false 1 0) (st (v3 0 0 1) 0) = some (0, false) := by decide
/-- V6.11. -/
theorem test_isneg_signed : out 1 (.isneg true 1 0) (st min3 0) = some (1, false) := by decide
/-- V6.12. -/
theorem test_isneg_unsigned : out 1 (.isneg false 1 0) (st min3 0) = some (0, false) := by decide
/-- V6.14. -/
theorem test_isodd : out 1 (.isodd false 1 0) (st neg1 0) = some (1, false) := by decide

/-! ## The datapaths, at the vectors that name them -/

/-- V4.18: a digit that needs one add-back. -/
theorem test_algorithmD_add_back : udivmod 3 3 (v3 (2 ^ 63) 0 (2 ^ 63)) (v3 (2 ^ 63 - 1) 0 (2 ^ 62)) = (1, v3 1 0 (2 ^ 62)) := by
  decide

/-- V4.19: short division. -/
theorem test_shortDiv : udivmod 3 3 (v3 1 2 3) 10 = (v3 0 0x4CCCCCCCCCCCCCCD 0, 1) := by decide

/-- V3.18: the Karatsuba path with both carries. -/
theorem test_karatsuba_carries : karatsuba 3 ones6 ones6 = (ones6 * ones6 : Nat) := by decide

/-! ## The host port -/

/-- V8.1, V8.2 (N = 3), V8.4: ID, CONFIG and CMD. -/
theorem test_reads : look (stQ 0 0 [hr 0x000#12]) = some (0, 0, false, 0, [0x0000000144574345#64]) ∧
    look (stQ 0 0 [hr 0x008#12]) = some (0, 0, false, 0, [0x0000000006400803#64]) ∧
    look (stQ 0 0 [hr 0x020#12]) = some (0, 0, false, 0, [0#64]) := ⟨by decide, by decide, by decide⟩

/-- 20_memory.md R54: a write to word 1 of `x[2]`, and a read of word 2 of `x[1]`. -/
theorem test_word_write : look { stN .n3 0 0 (v3 1 2 3) 0 with queue := [hw 0x188#12 0x3333#64] } =
    some (0, 0, false, v3 1 0x3333 3, []) := by decide
theorem test_word_read : look (stQ 0 (v3 4 5 6) [hr 0x150#12]) = some (0, 0, false, 0, [6#64]) := by decide

/-- V8.7: `OV` is kept by a capture, and STATUS shows both. -/
theorem test_capture_keeps_ov : look (withOv [cmdWrite 0x00021B5A#32]) = some (3, 0x00021B5A, true, 0, []) := by decide
theorem test_status_read : look { withOv [hr 0x010#12] with err := 3#4 } = some (3, 0, true, 0, [0x31#64]) := by decide

/-- V8.8: a STATUS write clears `ERR` and `OV` and keeps ERRCMD. -/
theorem test_clear : look { stE 0 0 [hw 0x010#12 0x12345#64] with ov := true } = some (0, 0x88, false, 0, []) := by decide

/-- V7.13: a command while an error is pending is discarded. -/
theorem test_discard : look (stE 0 5 [cmdWrite 0x00024208#32]) = some (2, 0x88, false, 0, []) := by decide

/-- V8.9: the unmapped gap, word 3 of `x0` at N = 3, a misaligned offset, above the slots; and a 32-bit access (20_memory.md
R58). -/
theorem test_refusals : ([hr 0x028#12, hr 0x118#12, hr 0x104#12, hr 0x300#12, HostInput.txn (.read 32 0x100#12)].map fun q =>
    isRefused (stQ 0 0 [q])) = [true, true, true, true, true] := by decide

/-- V8.10: the first, ninth and last byte of `x[1]`. -/
theorem test_bytes :
    let s := st 0 (v3 0x0807060504030201 0x100F0E0D0C0B0A09 0x1817161514131211)
    busByte 0x40000000 s 0x40000140 = some 0x01#8 ∧ busByte 0x40000000 s 0x40000148 = some 0x09#8 ∧
      busByte 0x40000000 s 0x40000157 = some 0x18#8 ∧ busByte 0x40000000 s 0x40000158 = none := by decide

/-- The assembler's lines of programs P3 and P5. -/
theorem test_assemble :
    assemble ⟨.ldi, some .s, [.reg 1, .num (-2)]⟩ = .ok (.ldi true 1 0xFFFE#16) ∧
    assemble ⟨.shl, none, [.reg 1, .reg 1, .reg 0]⟩ = .ok (.shl false 1 1 0) ∧
    assemble ⟨.add, none, [.reg 2, .reg 0, .reg 1]⟩ = .error .suffixRequired ∧
    assemble ⟨.mov, some .u, [.reg 2, .reg 0]⟩ = .error .suffixNotAllowed := by decide

/-! ## Witnesses: each statement's hypotheses met together, for each clause, at the boundaries -/

/-- The rows of ADD and MULFW: a reserved bit, one register twice, and a word that decodes. -/
theorem test_witness_DecodingFollowsTheOpcodeMap :
    (0x00000088#32).toNat % 64 = 0x08 ∧ 0x00000088#32 &&& 0xFFF038BF#32 ≠ 0x08#32 ∧
    (0x00021211#32).toNat % 64 = 0x11 ∧ 0x00021211#32 &&& 0xFFF000BF#32 = 0x11#32 ∧
    field 0x00021211#32 8 = field 0x00021211#32 11 ∧ 0x00021A11#32 &&& 0xFFF000BF#32 = 0x11#32 ∧
    field 0x00021A11#32 8 ≠ field 0x00021A11#32 11 ∧
    (opcodeMap.map fun row => row.op).length = 22 := by decide

/-- A well-formed and an ill-formed command. -/
theorem test_witness_DecodeOfEncodeIsTheCommand :
    WellFormed (.divfw true 7 6 5 4 3) = true ∧ WellFormed (.divfw true 7 7 5 4 3) = false := by decide

/-- A word that decodes. -/
theorem test_witness_EncodeOfDecodeIsTheWord :
    decode 0x0022231B#32 = .ok (.divfw false 3 4 0 1 2) := by decide

/-- MOV and ISODD. -/
theorem test_witness_IgnoredSignBitChangesNothing :
    (0x00004201#32).toNat % 64 ∈ ignoresS ∧ decode 0x00004201#32 = .ok (.mov false 2 1) ∧
    (0x0000012B#32).toNat % 64 ∈ ignoresS ∧ decode 0x0000012B#32 = .ok (.isodd false 1 0) := by decide

/-- A CMD write of ADD with its upper half set. -/
theorem test_witness_StepRunsTheDecodedCommand :
    NextWrite (stQ 1 2 [hw 0x020#12 0xABCD000000020208#64]) 0x020#12 0xABCD000000020208#64 [] ∧
    (stQ 1 2 []).err = 0#4 ∧ decode (low32 0xABCD000000020208#64) = .ok (.add false 2 0 1) ∧
    WellFormed (.add false 2 0 1) = true :=
  ⟨rfl, by decide⟩

/-- Data that agree in the low half only; a CMD read. -/
theorem test_witness_CmdTakesLowHalfAndReadsZero :
    (0xFFFFFFFF00020208#64).toNat % 2 ^ 32 = (0x00020208#64).toNat % 2 ^ 32 ∧
    NextRead (stQ 0 0 [hr 0x020#12]) 0x020#12 [] ∧ NextWrite (stQ 0 0 [hw 0x020#12 5#64]) 0x020#12 5#64 [] :=
  ⟨by decide, rfl, rfl⟩

/-- One word for each error. -/
theorem test_witness_ErrorCaptureWritesOnlyErrAndErrcmd :
    NextWrite (stQ 0 5 [hw 0x020#12 0#64]) 0x020#12 0#64 [] ∧ (stQ 0 5 []).err = 0#4 ∧
    decode (low32 0#64) = .error .illegalOpcode ∧ decode (low32 0x88#64) = .error .reservedField ∧
    decode (low32 0x00021211#64) = .error .destConflict :=
  ⟨rfl, by decide⟩

/-- A pending error with a CMD write, a write to the last word of `x[7]` and a read of word 0 of `x[0]`. -/
theorem test_witness_PendingErrorDiscardsCommands :
    (stE 0 0 []).err ≠ 0#4 ∧ NextWrite (stE 0 0 [hw 0x020#12 0x208#64]) 0x020#12 0x208#64 [] ∧
    NextWrite (stE 0 0 [hw 0x2D0#12 9#64]) (BitVec.ofNat 12 (0x100 + 0x40 * (7 : Reg).val + 8 * 2)) 9#64 [] ∧
    2 < (stE 0 0 []).n.words ∧ NextRead (stE 0 0 [hr 0x100#12]) (BitVec.ofNat 12 (0x100 + 0x40 * (0 : Reg).val + 8 * 0)) [] :=
  ⟨by decide, rfl, rfl, by decide, rfl⟩

/-- A STATUS write and a STATUS read with an error pending. -/
theorem test_witness_StatusWriteClearsAndReadShows :
    NextWrite (stE 0 0 [hw 0x010#12 0x12345#64]) 0x010#12 0x12345#64 [] ∧ NextRead (stE 0 0 [hr 0x010#12]) 0x010#12 [] :=
  ⟨rfl, rfl⟩

/-- A pending error, and a step of each kind: idle, a STATUS write followed by a CMD write, the reset input. -/
theorem test_witness_OnlyStatusWriteOrResetClearsAnError :
    (stE 0 0 []).err ≠ 0#4 ∧ isNext (stE 0 0 []) = true ∧ isNext (stE 0 0 [hw 0x010#12 0#64]) = true ∧
    isNext (stE 0 0 [.reset []]) = true ∧ NextWrite (stE 0 0 [hw 0x010#12 0#64, hw 0x020#12 0x208#64]) 0x010#12 0#64
      [.txn (.write 64 0x020#12 0x208#64)] ∧ decode (low32 0x208#64) = .ok (.add false 2 0 0) ∧
    decode (low32 0x88#64) = .error .reservedField :=
  ⟨by decide, by decide, by decide, by decide, rfl, by decide, by decide⟩

/-- A capture and a reset that change ERRCMD; an ERRCMD write and read. -/
theorem test_witness_ErrcmdIsWrittenOnlyByTheCapture :
    look (stQ 0 0 [hw 0x020#12 0x88#64]) = some (2, 0x88, false, 0, []) ∧ (stQ 0 0 []).errcmd = 0#32 ∧
    look (stE 0 0 [.reset []]) = some (0, 0, false, 0, []) ∧ (stE 0 0 []).errcmd = 0x88#32 ∧
    NextWrite (stE 0 0 [hw 0x018#12 7#64]) 0x018#12 7#64 [] ∧ NextRead (stE 0 0 [hr 0x018#12]) 0x018#12 [] :=
  ⟨by decide, by decide, by decide, by decide, rfl, rfl⟩

/-- Reads and writes of ID and CONFIG. -/
theorem test_witness_IdAndConfigAreConstants :
    NextRead (stQ 0 0 [hr 0x000#12]) 0x000#12 [] ∧ NextRead (stQ 0 0 [hr 0x008#12]) 0x008#12 [] ∧
    NextWrite (stQ 0 0 [hw 0x000#12 1#64]) 0x000#12 1#64 [] ∧ NextWrite (stQ 0 0 [hw 0x008#12 1#64]) 0x008#12 1#64 [] :=
  ⟨rfl, rfl, rfl, rfl⟩

/-- The first word of `x[0]` and the last of `x[7]`. -/
theorem test_witness_WordAccessTouchesOneWord :
    0 < (stQ 0 0 []).n.words ∧ 2 < (stQ 0 0 []).n.words ∧ ¬ 3 < (stQ 0 0 []).n.words ∧
    NextRead (stQ 0 0 [hr 0x100#12]) (BitVec.ofNat 12 (0x100 + 0x40 * (0 : Reg).val + 8 * 0)) [] ∧
    NextWrite (stQ 0 0 [hw 0x2D0#12 1#64]) (BitVec.ofNat 12 (0x100 + 0x40 * (7 : Reg).val + 8 * 2)) 1#64 [] :=
  ⟨by decide, by decide, by decide, rfl, rfl⟩

/-- The last mapped word of `x[0]` at N = 3 is admitted, the next offset is refused. -/
theorem test_witness_PortRefusesExactlyOutsideTheMap :
    (stQ 0 0 [hr 0x110#12]).queue = .txn (.read 64 0x110#12) :: [] ∧ isNext (stQ 0 0 [hr 0x110#12]) = true ∧
    (stQ 0 0 [hr 0x118#12]).queue = .txn (.read 64 0x118#12) :: [] ∧ isRefused (stQ 0 0 [hr 0x118#12]) = true := by decide

/-- A read of CMD. -/
theorem test_witness_ReadsHaveNoSideEffects :
    (stQ 0 0 [hr 0x020#12]).queue = .txn (.read 64 0x020#12) :: [] ∧ isNext (stQ 0 0 [hr 0x020#12]) = true := by decide

/-- A reset that takes back a running command and a held read. -/
theorem test_witness_ResetInputZeroesEveryPiece :
    (stE 5 6 [.reset [.write 64 0x020#12 0x208#64, .read 64 0x110#12]]).queue =
    .reset [.write 64 0x020#12 0x208#64, .read 64 0x110#12] :: [] := by decide

/-- The least and the greatest legal width, and an illegal one between. -/
theorem test_witness_EngineIsBuiltForFiveWidths :
    2 ∈ [2, 3, 4, 6, 8] ∧ 8 ∈ [2, 3, 4, 6, 8] ∧ 5 ∉ [2, 3, 4, 6, 8] := by decide

/-- A state with an error pending that has the invariant, and a step from it. -/
theorem test_witness_ErrorRegistersAgreeIsKept :
    ErrorRegistersAgree (stE 0 0 [hw 0x020#12 0#64]) ∧ isNext (stE 0 0 [hw 0x020#12 0#64]) = true :=
  ⟨.inr ⟨.reservedField, by decide, by decide⟩, by decide⟩

/-- A run of one input. -/
theorem test_witness_LaterInputsDoNotMatter :
    isNext (stQ 1 2 [cmdWrite 0x00020208#32]) = true := by decide

/-- A command, a word write and a reset that each change `x[2]`. -/
theorem test_witness_RegistersChangeOnlyByTheirWriters :
    (out 2 (.add false 2 0 1) (st 1 2)).isSome = true ∧ (stQ 1 2 []).uval 2 = 0 ∧
    look (stQ 1 2 [cmdWrite 0x00020208#32]) = some (0, 0, false, 3, []) ∧
    look (stQ 1 2 [hw 0x180#12 3#64]) = some (0, 0, false, 3, []) ∧
    look (with2 9 [.reset []]) = some (0, 0, false, 0, []) ∧ (with2 9 []).uval 2 = 9 :=
  ⟨by decide, by decide, by decide, by decide, by decide, by decide⟩

/-- A command that never reports; and a command, a STATUS write and a reset that each change `OV`. -/
theorem test_witness_OverflowFlagChangesOnlyByItsWriters :
    NeverReports (.mulfw false 2 3 0 1) ∧ WellFormed (.mulfw false 2 3 0 1) = true ∧
    look (stQ neg1 1 [cmdWrite 0x00020208#32]) = some (0, 0, true, 0, []) ∧ (stQ neg1 1 []).ov = false ∧
    look (withOv [hw 0x010#12 0#64]) = some (0, 0, false, 0, []) ∧
    look (withOv [.reset []]) = some (0, 0, false, 0, []) :=
  ⟨trivial, by decide, by decide, by decide, by decide, by decide⟩

/-- A host that reads, runs a command and resets. -/
theorem test_witness_ContractKeepingHostNeverStopsTheEngine :
    (stQ 1 2 [hr 0x110#12, cmdWrite 0x00020208#32, .reset []]).HostKeepsContract := by
  intro input h
  simp only [stQ, List.mem_cons, List.not_mem_nil, or_false] at h
  rcases h with rfl | rfl | rfl
  · exact ⟨rfl, by decide, by decide⟩
  · exact ⟨rfl, by decide, by decide⟩
  · trivial

/-- Format R1: MOV, NEG, NOT, BSWAP, ISZ, ISNEG and ISODD, a word of each that its mask and match select. -/
theorem test_witness_SelectsR1 :
    [0x00004201#32, 0x0000424A#32, 0x00000120#32, 0x00000126#32, 0x00000129#32, 0x0000016A#32, 0x0000012B#32].map
      (fun c => c &&& 0xFFFE38BF#32) = [0x01#32, 0x0A#32, 0x20#32, 0x26#32, 0x29#32, 0x2A#32, 0x2B#32] := by decide

/-- Format R2: ADD, SUB, MUL, DIV, REM, AND, OR, XOR, SHL, SHR and CMP. -/
theorem test_witness_SelectsR2 :
    [0x00020208#32, 0x00020249#32, 0x00020250#32, 0x00020218#32, 0x00020259#32, 0x00020221#32, 0x00020222#32, 0x00024123#32,
      0x00020224#32, 0x00020265#32, 0x00020268#32].map (fun c => c &&& 0xFFF038BF#32) =
      [0x08#32, 0x09#32, 0x10#32, 0x18#32, 0x19#32, 0x21#32, 0x22#32, 0x23#32, 0x24#32, 0x25#32, 0x28#32] := by decide

/-- Format R2D: MULFW and DIVREM, with two registers and with one register twice. -/
theorem test_witness_SelectsR2D :
    [0x00021A11#32, 0x00021211#32, 0x0004081A#32, 0x00021B5A#32].map
      (fun c => (c &&& 0xFFF000BF#32, decide (field c 8 = field c 11))) =
      [(0x11#32, false), (0x11#32, true), (0x1A#32, false), (0x1A#32, true)] := by decide

/-- Format I: a word that LDI's mask and match select, and one with a reserved bit set. -/
theorem test_witness_LdiLoadsTheExtendedImmediate : 0xFFFE0342#32 &&& 0x0000F8BF#32 = 0x00000002#32 ∧
    (0x00000802#32).toNat % 64 = 0x02 ∧ 0x00000802#32 &&& 0x0000F880#32 ≠ 0#32 := by decide

/-- Format R3D: both branches, and both divisors. -/
theorem test_witness_DivfwDividesTheFullWidthDividend : 0x00346C1B#32 &&& 0xFF8000BF#32 = 0x0000001B#32 ∧
    field 0x00346C1B#32 8 ≠ field 0x00346C1B#32 11 ∧ 0x0034091B#32 &&& 0xFF8000BF#32 = 0x0000001B#32 ∧
    field 0x0034091B#32 8 = field 0x0034091B#32 11 ∧ (4 : Reg) ≠ 5 ∧ (st 0 0).uval 1 = 0 ∧ (st 0 2).uval 1 ≠ 0 := by decide

/-- Two registers. -/
theorem test_witness_MulfwGivesTheWholeProduct :
    (2 : Reg) ≠ 3 := by decide

/-- DIV, REM, DIVREM (`DivRoundsTowardZero`, `RemHasTheDividendsSign`, `DivremGivesBothResults`): the three rows
of R181, the overflow row next to its neighbour. -/
theorem test_witness_DivisionCases :
    (2 : Reg) ≠ 3 ∧ (st 5 0).uval 1 = 0 ∧ SignedOverflow (st min3 neg1) true 0 1 ∧ (st min3 neg1).uval 1 ≠ 0 ∧
    ¬ SignedOverflow (st min3 neg1) false 0 1 ∧ ¬ SignedOverflow (st (min3 + 1) neg1) true 0 1 :=
  ⟨by decide, by decide, ⟨rfl, by decide, by decide⟩, by decide, fun h => absurd h.1 (by decide), fun h => absurd h.2.1 (by decide)⟩

/-- The lowest and the highest bit. -/
theorem test_witness_NotComplementsEveryBit :
    0 < (st 0 0).W ∧ 191 < (st 0 0).W ∧ ¬ 192 < (st 0 0).W := by decide

/-- Amounts 1 and 193, 191 and -1, and the multiple -192. -/
theorem test_witness_ShiftAmountsAreReducedModuloTheWidth :
    (stN .n3 0 0 1 193).sval 3 = (stN .n3 0 0 1 193).sval 2 + 1 * (stN .n3 0 0 1 193).W ∧
    (stN .n3 0 0 191 neg1).sval 3 = (stN .n3 0 0 191 neg1).sval 2 + (-1) * (stN .n3 0 0 191 neg1).W ∧
    (stN .n3 0 0 (neg 192) 0).sval 2 = (-1) * (stN .n3 0 0 (neg 192) 0).W := by decide

/-- The first and the last byte. -/
theorem test_witness_BswapReversesTheBytes :
    0 < 8 * (st 0 0).n.words ∧ 23 < 8 * (st 0 0).n.words ∧ ¬ 24 < 8 * (st 0 0).n.words := by decide

/-- The three orders. -/
theorem test_witness_CmpOrdersTheOperands :
    (st min3 (min3 - 1)).val true 0 < (st min3 (min3 - 1)).val true 1 ∧ (st 3 3).uval 0 = (st 3 3).uval 1 ∧
    (st min3 (min3 - 1)).val false 1 < (st min3 (min3 - 1)).val false 0 := by decide

/-- A destination that is not the second source; it may be the first. -/
theorem test_witness_SubUndoesAdd :
    (0 : Reg) ≠ 1 := by decide

/-- Five registers of program P3. -/
theorem test_witness_MultiplicationSignLaw :
    (3 : Reg) ≠ 0 ∧ (3 : Reg) ≠ 1 ∧ (2 : Reg) ≠ 0 ∧ (2 : Reg) ≠ 1 ∧ (4 : Reg) ≠ 2 := by decide

/-- DIVREM and DIVFW without overflow, the quotient fitting (V4.8, V4.22). -/
theorem test_witness_DivisionIdentity :
    out2 2 3 (.divrem true 2 3 0 1) (st (neg 7) (neg 2)) = some (3, neg1, false) ∧ (2 : Reg) ≠ 3 ∧
    out2 4 5 (.divfw false 4 5 1 2 3) (stN .n3 0 (v3 1 2 3) (v3 27 18 0) (v3 5 14 29)) = some (v3 4 5 6, v3 1 1 1, false) ∧
    (4 : Reg) ≠ 5 ∧ Fits false 192 (v3 4 5 6 : Nat) :=
  ⟨by decide, by decide, by decide, by decide, by simp only [Fits]; decide⟩

/-- The three words of a register in the order of V8.5. -/
theorem test_witness_LimbRoundTrip :
    [2, 0, 1].Nodup ∧ ∀ j, j ∈ [2, 0, 1] ↔ j < (st 0 0).n.words := by
  refine ⟨by decide, fun j => ?_⟩
  have : (st 0 0).n.words = 3 := by decide
  rw [this]
  simp
  omega

/-- The first and the last byte of a register. -/
theorem test_witness_RegisterBytesAreLittleEndian :
    0 < 8 * (st 0 0).n.words ∧ 23 < 8 * (st 0 0).n.words := by decide

/-- The greatest three-word operands. -/
theorem test_witness_SchoolbookProductIsExact :
    neg1 < 2 ^ (64 * 3) := by decide

/-- The greatest operands of four words. -/
theorem test_witness_MultiplierPathsAgree :
    ones6 / 2 ^ 128 < 2 ^ (64 * (2 * 2)) := by decide

/-- The least and the greatest one-word divisor. -/
theorem test_witness_ShortDivisionIsExact :
    0 < 1 ∧ 1 < 2 ^ 64 ∧ 0 < 2 ^ 64 - 1 ∧ 2 ^ 64 - 1 < 2 ^ 64 := by decide

/-- A one-word and a three-word divisor of three-word dividends, and a four-word dividend. -/
theorem test_witness_AlgorithmDIsCorrect :
    3 ≤ 3 ∧ v3 1 2 3 < 2 ^ (64 * 3) ∧ 10 < 2 ^ (64 * 3) ∧ 10 ≠ 0 ∧ v3 1 2 3 ≠ 0 ∧ 3 ≤ 4 ∧ ones6 / 2 ^ 128 < 2 ^ (64 * 4) := by decide

/-- The regular row, and a divisor that is not zero. -/
theorem test_witness_SignedDividerAgrees :
    divCase true (7#192) (-2#192) = .regular ∧ val true (-1#192) ≠ 0 := by decide

/-- The least and the greatest amount at N = 3. -/
theorem test_witness_WordShiftsAgree :
    0 < Width.n3.bits ∧ 191 < Width.n3.bits ∧ ¬ 192 < Width.n3.bits := by decide

/-- The ends of both ranges, and the first numbers outside them. -/
theorem test_witness_AssemblerExpandsAndChecksRanges :
    (-32768 : Int) ≤ -32768 ∧ (32767 : Int) ≤ 32767 ∧ ¬ (-32768 : Int) ≤ -32769 ∧ ¬ (32768 : Int) ≤ 32767 ∧
    (65535 : Int) ≤ 65535 ∧ ¬ (65536 : Int) ≤ 65535 := by decide

end Sys2Proof.Tests
end

section
/-! PROOFS. The widths an engine is built for (00_scope.md R6). -/

namespace Sys2Proof

@[simp] theorem Width.ofNat?_words (n : Width) : Width.ofNat? n.words = some n := by
  cases n <;> rfl

theorem Width.exists_words_iff {k : Nat} : (∃ n : Width, n.words = k) ↔ k ∈ [2, 3, 4, 6, 8] := by
  constructor
  · rintro ⟨n, rfl⟩
    cases n <;> decide
  · intro hk
    simp only [List.mem_cons, List.not_mem_nil, or_false] at hk
    obtain rfl | rfl | rfl | rfl | rfl := hk
    exacts [⟨.n2, rfl⟩, ⟨.n3, rfl⟩, ⟨.n4, rfl⟩, ⟨.n6, rfl⟩, ⟨.n8, rfl⟩]

theorem Width.words_of_ofNat?_eq_some {k : Nat} {n : Width} (h : Width.ofNat? k = some n) : n.words = k := by
  unfold Width.ofNat? at h
  split at h <;> cases h <;> rfl

theorem Width.ofNat?_eq_none_iff {k : Nat} : Width.ofNat? k = none ↔ k ∉ [2, 3, 4, 6, 8] := by
  rw [← Width.exists_words_iff, Option.eq_none_iff_forall_ne_some, not_exists]
  refine forall_congr' fun n => not_congr ⟨Width.words_of_ofNat?_eq_some, ?_⟩
  rintro rfl
  exact Width.ofNat?_words n

namespace Machine

@[simp] theorem State.build_words (n : Width) : State.build n.words = some (State.resetAt n) :=
  congrArg (Option.map State.resetAt) (Width.ofNat?_words n)

theorem State.build_eq_none_iff {k : Nat} : State.build k = none ↔ k ∉ [2, 3, 4, 6, 8] :=
  Option.map_eq_none_iff.trans Width.ofNat?_eq_none_iff

/-- Settles O18: the five legal values of `N` are the word counts of the widths, and `ofNat?` refuses every other. -/
theorem engineIsBuiltForFiveWidths : Obligations.EngineIsBuiltForFiveWidths := by
  refine fun k => ⟨fun hk => ?_, State.build_eq_none_iff.mpr⟩
  obtain ⟨n, rfl⟩ := Width.exists_words_iff.mpr hk
  exact ⟨State.resetAt n, State.build_words n, rfl, rfl⟩

end Machine
end Sys2Proof
end

section
/-! PROOFS. What a register of the host port reads as, and what a host access to it does to the engine (10_state.md R32 to
R36, 20_memory.md R59). -/

namespace Sys2Proof.Machine

open Sys2Proof.Spec

/-! ## The values a read returns -/

theorem configValue_toNat (n : Width) :
    (configValue n).toNat = n.words + 2 ^ 8 * 8 + 2 ^ 16 * 64 + 2 ^ 24 * 6 := by
  cases n <;> rfl

theorem statusValue_toNat (s : State) : (statusValue s).toNat = 16 * s.err.toNat + s.ov.toNat := by
  simp only [statusValue, append_toNat, ofBool_toNat, BitVec.toNat_ofNat]
  omega

theorem errcmdValue_toNat (s : State) : (errcmdValue s).toNat = s.errcmd.toNat :=
  BitVec.toNat_setWidth_of_le (by decide)

/-- Only data bits 31:0 reach the command word. -/
theorem low32_eq_low32_iff {d1 d2 : Word} : low32 d1 = low32 d2 ↔ d1.toNat % 2 ^ 32 = d2.toNat % 2 ^ 32 := by
  rw [low32, low32, ← BitVec.toNat_inj, BitVec.toNat_ofNat, BitVec.toNat_ofNat]

/-! ## Accesses that leave the engine alone -/

/-- The host's lists (log 1, log 3) are no part of the engine. -/
theorem sameEngine_withHostLists (s : State) (inputs : List HostInput) (data : List Word) :
    SameEngine s { s with queue := inputs, replies := data } :=
  ⟨⟨rfl, fun _ => rfl⟩, rfl, rfl, rfl⟩

/-- A read at a mapped offset returns the value of the register there and changes nothing in the engine. -/
theorem readReturns_readPort {s : State} {off : Offset} {p : PortReg} (ha : off.toNat % 8 = 0)
    (hp : portReg s.n off = some p) : ReadReturns s off (readPort s p).toNat :=
  fun _ hq => ⟨_, _, step_of_read hq ha hp, sameEngine_withHostLists s _ _, rfl, rfl, rfl⟩

/-- A write to a register that ignores writes changes nothing in the engine. -/
theorem sameEngine_of_ignored_write {s : State} {off : Offset} {data : Word} {rest : List HostInput} {p : PortReg}
    (hq : NextWrite s off data rest) (ha : off.toNat % 8 = 0) (hp : portReg s.n off = some p)
    (hw : ∀ u, writePort p data u = .next u) : ∃ t, step s = .next t ∧ SameEngine s t :=
  ⟨_, (step_of_write hq ha hp).trans (hw _), sameEngine_withHostLists s rest s.replies⟩

/-! ## The port's registers -/

/-- Settles O7: a CMD write runs `low32` of its data, and nothing else of the data is looked at. -/
theorem cmdTakesLowHalfAndReadsZero : Obligations.CmdTakesLowHalfAndReadsZero := by
  refine ⟨fun s data rest hq => step_of_cmd hq, fun s d1 d2 rest hd => ?_,
    fun s => readReturns_readPort (p := .cmd) (by decide) rfl⟩
  calc step { s with queue := .txn (.write 64 0x020#12 d1) :: rest }
      = runCommand (low32 d1) { s with queue := rest } := step_of_cmd rfl
    _ = runCommand (low32 d2) { s with queue := rest } := by rw [low32_eq_low32_iff.mpr hd]
    _ = step { s with queue := .txn (.write 64 0x020#12 d2) :: rest } := by
      rw [step_of_cmd rfl, low32]

/-- Settles O10: the write is `clearStatus`, the read is `statusValue`. -/
theorem statusWriteClearsAndReadShows : Obligations.StatusWriteClearsAndReadShows := by
  refine ⟨fun s data rest hq => ?_, fun s => ?_⟩
  · exact ⟨clearStatus { s with queue := rest }, step_of_write (p := .status) hq (by decide) rfl, rfl, rfl, rfl, rfl,
      fun _ => rfl⟩
  · rw [← statusValue_toNat]
    exact readReturns_readPort (p := .status) (by decide) rfl

/-- Settles O13: the two read values do not depend on the state but for its width, and `writePort` ignores both registers. -/
theorem idAndConfigAreConstants : Obligations.IdAndConfigAreConstants := by
  refine fun s => ⟨readReturns_readPort (p := .id) (by decide) rfl, ?_, ?_⟩
  · rw [← configValue_toNat]
    exact readReturns_readPort (p := .config) (by decide) rfl
  · rintro off data rest (rfl | rfl) hq
    · exact sameEngine_of_ignored_write (p := .id) hq (by decide) rfl fun _ => rfl
    · exact sameEngine_of_ignored_write (p := .config) hq (by decide) rfl fun _ => rfl

end Sys2Proof.Machine
end

section
/-! PROOFS. Which steps can change each piece of the state: the error registers, the operand registers and the flag
(10_state.md R21, R30 to R32, R36; 60_exceptions.md R262, R266). -/

namespace Sys2Proof.Machine

open Sys2Proof.Spec

/-! ## What a command and a command word can do -/

/-- No command touches the width or the host's lists. -/
theorem exec_keeps_host_side {i : Instr} {s t : State} (h : exec i s = .next t) :
    t.n = s.n ∧ t.queue = s.queue ∧ t.replies = s.replies := by
  obtain ⟨u, hu, hn, hq, hr, _⟩ := exec_spec i s
  cases hu.symm.trans h
  exact ⟨hn, hq, hr⟩

/-- A command that is not DEST_CONFLICT leaves the error registers alone. -/
theorem exec_keeps_error_registers {i : Instr} {s t : State} (hw : WellFormed i = true) (h : exec i s = .next t) :
    t.err = s.err ∧ t.errcmd = s.errcmd := by
  obtain ⟨u, hu, _, _, _, ⟨_, herr, hcmd⟩ | ⟨hill, _⟩⟩ := exec_spec i s
  · cases hu.symm.trans h
    exact ⟨herr, hcmd⟩
  · rw [hw] at hill
    cases hill

/-- The 14 commands that do not report write 0 to the flag (10_state.md R30). -/
theorem exec_ov_of_neverReports {i : Instr} {s t : State} (hn : NeverReports i) (hw : WellFormed i = true)
    (h : exec i s = .next t) : t.ov = false := by
  cases i with
  | add | sub | neg | mul | div | rem | divrem | divfw => exact False.elim hn
  | mulfw S rd rd2 rs1 rs2 =>
    have hne : rd ≠ rd2 := by simpa [WellFormed] using hw
    cases (guardDest_of_ne _ s _ hne).symm.trans h
    rfl
  | _ =>
    cases h
    rfl

/-- What running a command word leaves: the same state, a capture, or what the decoded command left. -/
theorem runCommand_next_cases {c : CmdWord} {s t : State} (h : runCommand c s = .next t) :
    t = s ∨ (s.err = 0#4 ∧ ∃ e, decode c = .error e ∧ t = captureError e c s) ∨
      (s.err = 0#4 ∧ ∃ i, decode c = .ok i ∧ exec i s = .next t) := by
  obtain ⟨_, hr⟩ | ⟨herr, e, hd, hr⟩ | ⟨herr, i, hd, hr⟩ := runCommand_cases c s
  · cases hr.symm.trans h
    exact .inl rfl
  · cases hr.symm.trans h
    exact .inr (.inl ⟨herr, e, hd, rfl⟩)
  · exact .inr (.inr ⟨herr, i, hd, hr.symm.trans h⟩)

theorem uval_writeWord_other (s : State) {r q : Reg} (j : Nat) (d : Word) (h : q ≠ r) :
    (s.writeWord r j d).uval q = s.uval q := uval_write_other s r q _ h

/-- Everything a step can do to the engine: nothing, the clear by a STATUS write, the capture, a command, a word write to an
operand register, or the reset input. -/
theorem step_engine_cases {s t : State} (h : step s = .next t) :
    SameEngine s t ∨
    (∃ data rest, NextWrite s 0x010#12 data rest ∧ t = clearStatus { s with queue := rest }) ∨
    (∃ data rest e, NextWrite s 0x020#12 data rest ∧ s.err = 0#4 ∧ decode (low32 data) = .error e ∧
      t = captureError e (low32 data) { s with queue := rest }) ∨
    (∃ data rest i, NextWrite s 0x020#12 data rest ∧ s.err = 0#4 ∧ decode (low32 data) = .ok i ∧
      exec i { s with queue := rest } = .next t) ∨
    (∃ r j data rest, j < s.n.words ∧ NextWrite s (offWord r j) data rest ∧
      t = State.writeWord { s with queue := rest } r j data) ∨
    ∃ dropped rest, s.queue = .reset dropped :: rest ∧ t = resetEngine { s with queue := rest } := by
  obtain ⟨_, rfl⟩ | ⟨_, rest, p, _, _, _, rfl⟩ | ⟨_, _, rest, _, _, rfl⟩ | hstatus | ⟨data, rest, hq, hrun⟩ | hword |
    hreset := step_cases h
  · exact .inl (sameEngine_withHostLists t t.queue t.replies)
  · exact .inl (sameEngine_withHostLists s rest _)
  · exact .inl (sameEngine_withHostLists s rest s.replies)
  · exact .inr (.inl hstatus)
  · obtain rfl | ⟨herr, e, hd, ht⟩ | ⟨herr, i, hd, hexec⟩ := runCommand_next_cases hrun
    · exact .inl (sameEngine_withHostLists s rest s.replies)
    · exact .inr (.inr (.inl ⟨data, rest, e, hq, herr, hd, ht⟩))
    · exact .inr (.inr (.inr (.inl ⟨data, rest, i, hq, herr, hd, hexec⟩)))
  · exact .inr (.inr (.inr (.inr (.inl hword))))
  · exact .inr (.inr (.inr (.inr (.inr hreset))))

/-! ## The error registers -/

/-- Everything a step can do to `ERR` and `ERRCMD`: nothing, the clear by a STATUS write, the capture, or the reset input. -/
theorem step_error_register_cases {s t : State} (h : step s = .next t) :
    (t.err = s.err ∧ t.errcmd = s.errcmd) ∨
    (∃ data rest, NextWrite s 0x010#12 data rest ∧ t.err = 0#4 ∧ t.errcmd = s.errcmd) ∨
    (∃ data rest e, NextWrite s 0x020#12 data rest ∧ s.err = 0#4 ∧ decode (low32 data) = .error e ∧
      t.errcmd = low32 data ∧ t.err = errorCode e) ∨
    ∃ dropped rest, s.queue = .reset dropped :: rest ∧ t.err = 0#4 ∧ t.errcmd = 0#32 := by
  obtain ⟨_, _, herr, hcmd⟩ | ⟨data, rest, hq, rfl⟩ | ⟨data, rest, e, hq, herr, hd, rfl⟩ | ⟨_, _, _, _, _, hd, hexec⟩ |
    ⟨_, _, _, _, _, _, rfl⟩ | ⟨dropped, rest, hq, rfl⟩ := step_engine_cases h
  · exact .inl ⟨herr, hcmd⟩
  · exact .inr (.inl ⟨data, rest, hq, rfl, rfl⟩)
  · exact .inr (.inr (.inl ⟨data, rest, e, hq, herr, hd, rfl, rfl⟩))
  · have hkept := exec_keeps_error_registers (wellFormed_of_decode hd) hexec
    exact .inl hkept
  · exact .inl ⟨rfl, rfl⟩
  · exact .inr (.inr (.inr ⟨dropped, rest, hq, rfl, rfl⟩))

theorem errorCode_le (e : CommandError) : (errorCode e).toNat ≤ 3 := by cases e <;> decide

/-- Under the invariant `ERR` is 0 or one of the three codes of 10_state.md R31. -/
theorem err_le_of_errorRegistersAgree {s : State} (h : ErrorRegistersAgree s) : s.err.toNat ≤ 3 := by
  obtain h0 | ⟨e, _, he⟩ := h
  · rw [h0]
    decide
  · rw [he]
    exact errorCode_le e

/-- Every step keeps the invariant: it leaves both registers alone, puts `ERR` at 0, or writes both by the capture. -/
theorem step_keeps_errorRegistersAgree {s t : State} (hs : ErrorRegistersAgree s) (h : step s = .next t) :
    ErrorRegistersAgree t := by
  obtain ⟨herr, hcmd⟩ | ⟨_, _, _, herr, _⟩ | ⟨data, _, e, _, _, hd, hcmd, herr⟩ | ⟨_, _, _, herr, _⟩ :=
    step_error_register_cases h
  · rwa [ErrorRegistersAgree, herr, hcmd]
  · exact .inl herr
  · exact .inr ⟨e, hcmd ▸ hd, herr⟩
  · exact .inl herr

/-- Settles O19: the invariant is kept by every step, and it bounds `ERR`. -/
theorem errorRegistersAgreeIsKept : Obligations.ErrorRegistersAgreeIsKept := fun _ _ hs h =>
  have ht := step_keeps_errorRegistersAgree hs h
  ⟨ht, err_le_of_errorRegistersAgree ht⟩

/-- Settles O20: no error is pending after reset. -/
theorem errorRegistersAgreeAtReset : Obligations.ErrorRegistersAgreeAtReset := .inl (resetAt_err builtWidth)

/-- Settles O12: of the four things a step can do to the error registers, only the capture and the reset input change
`ERRCMD`. -/
theorem errcmdIsWrittenOnlyByTheCapture : Obligations.ErrcmdIsWrittenOnlyByTheCapture := by
  refine ⟨fun s t h hne => ?_, fun s data rest hq => ?_, fun s => ?_⟩
  · obtain ⟨_, hcmd⟩ | ⟨_, _, _, _, hcmd⟩ | hcapture | ⟨dropped, rest, hq, _, hcmd⟩ := step_error_register_cases h
    · exact absurd hcmd hne
    · exact absurd hcmd hne
    · exact .inl hcapture
    · exact .inr ⟨dropped, rest, hq, hcmd⟩
  · exact sameEngine_of_ignored_write (p := .errcmd) hq (by decide) rfl fun _ => rfl
  · rw [← errcmdValue_toNat]
    exact readReturns_readPort (p := .errcmd) (by decide) rfl

/-! ## The width, the operand registers and the flag -/

theorem step_keeps_width {s t : State} (h : step s = .next t) : t.n = s.n := by
  obtain ⟨⟨hn, _⟩, _⟩ | ⟨_, _, _, rfl⟩ | ⟨_, _, _, _, _, _, rfl⟩ | ⟨_, _, _, _, _, _, hexec⟩ | ⟨_, _, _, _, _, _, rfl⟩ |
    ⟨_, _, _, rfl⟩ := step_engine_cases h
  · exact hn
  · rfl
  · rfl
  · exact (exec_keeps_host_side hexec).1
  · rfl
  · rfl

/-- Settles O22: the clear and the capture touch no operand register, and a word write touches the one it names. -/
theorem registersChangeOnlyByTheirWriters : Obligations.RegistersChangeOnlyByTheirWriters := by
  refine ⟨fun _ _ _ => exec_keeps_host_side, fun s t h => ⟨step_keeps_width h, fun r hne => ?_⟩⟩
  obtain ⟨⟨_, hx⟩, _⟩ | ⟨_, _, _, rfl⟩ | ⟨_, _, _, _, _, _, rfl⟩ | ⟨data, rest, i, hq, herr, hd, _⟩ |
    ⟨q, j, data, rest, hj, hq, rfl⟩ | ⟨dropped, rest, hq, _⟩ := step_engine_cases h
  · exact absurd (hx r) hne
  · exact absurd rfl hne
  · exact absurd rfl hne
  · exact .inl ⟨data, rest, i, hq, herr, hd⟩
  · obtain rfl : r = q := by
      by_contra hrq
      exact hne (uval_writeWord_other { s with queue := rest } j data hrq)
    exact .inr (.inl ⟨j, data, rest, hj, hq⟩)
  · exact .inr (.inr ⟨dropped, rest, hq⟩)

/-- Settles O23: the capture and a word write leave `OV` alone, the clear and the reset input put it at 0. -/
theorem overflowFlagChangesOnlyByItsWriters : Obligations.OverflowFlagChangesOnlyByItsWriters := by
  refine ⟨fun _ _ _ => exec_ov_of_neverReports, fun s t h hne => ?_⟩
  obtain ⟨_, hov, _⟩ | ⟨data, rest, hq, rfl⟩ | ⟨_, _, _, _, _, _, rfl⟩ | ⟨data, rest, i, hq, herr, hd, _⟩ |
    ⟨_, _, _, _, _, _, rfl⟩ | ⟨dropped, rest, hq, rfl⟩ := step_engine_cases h
  · exact absurd hov hne
  · exact .inr (.inl ⟨data, rest, hq, rfl⟩)
  · exact absurd rfl hne
  · exact .inl ⟨data, rest, i, hq, herr, hd⟩
  · exact absurd rfl hne
  · exact .inr (.inr ⟨dropped, rest, hq, rfl⟩)

end Sys2Proof.Machine
end

section
/-! PROOFS. The contract of the host port (20_memory.md R52, R53, R55, R58): which transactions are inside it, that exactly the
others are refused, and that a host that keeps to it never stops the engine. -/

namespace Sys2Proof.Machine

open Sys2Proof.Spec

/-! ## Which transactions are inside the contract -/

theorem offWord_aligned (r : Reg) (j : Nat) : (offWord r j).toNat % 8 = 0 := by
  simp only [offWord, BitVec.toNat_ofNat]
  omega

/-- The aligned mapped offsets are those of the map of 20_memory.md R53. -/
theorem aligned_mapped_iff (n : Width) (off : Offset) : (off.toNat % 8 = 0 ∧ (portReg n off).isSome) ↔
    (off.toNat ∈ [0x000, 0x008, 0x010, 0x018, 0x020] ∨
      ∃ r j, r < 8 ∧ j < n.words ∧ off.toNat = 0x100 + 0x40 * r + 8 * j) := by
  constructor
  · rintro ⟨ha, hp⟩
    obtain ⟨p, hp⟩ := Option.isSome_iff_exists.mp hp
    obtain ⟨_, rfl⟩ | ⟨_, rfl⟩ | ⟨_, rfl⟩ | ⟨_, rfl⟩ | ⟨_, rfl⟩ | ⟨r, j, hj, _, rfl⟩ := portReg_cases hp ha
    case inr.inr.inr.inr.inr =>
      exact .inr ⟨r, j, r.isLt, hj, offWord_toNat r (hj.trans_le (words_le n))⟩
    all_goals exact .inl (by decide)
  · rintro (hmem | ⟨r, j, hr, hj, hoff⟩)
    · have hoff : off ∈ [offId, offConfig, offStatus, offErrcmd, offCmd] := by
        simpa [← BitVec.toNat_inj, offId, offConfig, offStatus, offErrcmd, offCmd] using hmem
      simp only [List.mem_cons, List.not_mem_nil, or_false] at hoff
      obtain rfl | rfl | rfl | rfl | rfl := hoff <;> exact ⟨by decide, rfl⟩
    · obtain rfl : off = offWord ⟨r, hr⟩ j :=
        BitVec.eq_of_toNat_eq (hoff.trans (offWord_toNat ⟨r, hr⟩ (hj.trans_le (words_le n))).symm)
      exact ⟨offWord_aligned _ j, by rw [portReg_offWord n _ hj]; rfl⟩

/-- A transaction inside the contract is a 64-bit access at an aligned mapped offset. -/
theorem admitted_iff (n : Width) (tx : Txn) : tx.Admitted n ↔
    ∃ off, (tx = .read 64 off ∨ ∃ data, tx = .write 64 off data) ∧ off.toNat % 8 = 0 ∧ (portReg n off).isSome := by
  cases tx <;> simp [Txn.Admitted, and_assoc]

/-- A transaction inside the contract answers a next state, every other one is refused. -/
theorem transact_cases (tx : Txn) (s : State) :
    (tx.Admitted s.n ∧ ∃ t, transact tx s = .next t) ∨
    (¬ tx.Admitted s.n ∧ ∃ reason, transact tx s = .refused reason) := by
  cases tx with
  | read width off =>
    obtain ⟨reason, hr, hout⟩ | ⟨p, hw, ha, hp, hr⟩ := admit_cases s.n width off fun p =>
      .next { s with replies := s.replies ++ [readPort s p] }
    · exact .inr ⟨hout, reason, hr⟩
    · exact .inl ⟨⟨hw, ha, Option.isSome_of_eq_some hp⟩, _, hr⟩
  | write width off data =>
    obtain ⟨reason, hr, hout⟩ | ⟨p, hw, ha, hp, hr⟩ := admit_cases s.n width off fun p => writePort p data s
    · exact .inr ⟨hout, reason, hr⟩
    · obtain ⟨t, ht⟩ := writePort_next p data s
      exact .inl ⟨⟨hw, ha, Option.isSome_of_eq_some hp⟩, t, hr.trans ht⟩

theorem step_of_txn {s : State} {tx : Txn} {rest : List HostInput} (hq : s.queue = .txn tx :: rest) :
    step s = transact tx { s with queue := rest } := by
  simp only [step, hq, applyInput]

/-- The engine refuses the next transaction exactly when it is outside the contract. -/
theorem step_refused_iff {s : State} {tx : Txn} {rest : List HostInput} (hq : s.queue = .txn tx :: rest) :
    (∃ reason, step s = .refused reason) ↔ ¬ tx.Admitted s.n := by
  rw [step_of_txn hq]
  obtain ⟨hin, t, ht⟩ | ⟨hout, hr⟩ := transact_cases tx { s with queue := rest }
  · simp [ht, show tx.Admitted s.n from hin]
  · simp only [hr, true_iff]
    exact hout

/-- Settles O15: outside the contract means not at an offset of the map. -/
theorem portRefusesExactlyOutsideTheMap : Obligations.PortRefusesExactlyOutsideTheMap := by
  intro s tx rest hq
  rw [step_refused_iff hq, admitted_iff]
  simp only [aligned_mapped_iff]

/-! ## Runs under the contract -/

theorem step_queue_tail {s t : State} (h : step s = .next t) : t.queue = s.queue.tail := by
  cases hq : s.queue with
  | nil =>
    rw [step, hq] at h
    cases h
    exact hq
  | cons input rest =>
    rw [show s = { s with queue := input :: rest } by rw [← hq]] at h
    exact (step_cons rest h).1

/-- The contract speaks of a list of inputs and the width only, so it holds of what is left of the list after a step. -/
theorem step_keeps_hostKeepsContract {s t : State} (hs : s.HostKeepsContract) (h : step s = .next t) :
    t.HostKeepsContract := by
  intro input hmem
  rw [step_queue_tail h] at hmem
  rw [step_keeps_width h]
  exact hs input (List.mem_of_mem_tail hmem)

/-- An engine whose host keeps to the contract takes its next step. -/
theorem step_next_of_hostKeepsContract {s : State} (hs : s.HostKeepsContract) : ∃ t, step s = .next t := by
  cases hq : s.queue with
  | nil => exact ⟨s, by rw [step, hq]⟩
  | cons input rest =>
    have hin : input.InContract s.n := hs input (by rw [hq]; exact List.mem_cons_self)
    cases input with
    | reset dropped => exact ⟨_, step_of_reset hq⟩
    | txn tx =>
      rw [step_of_txn hq]
      obtain ⟨_, hnext⟩ | ⟨hout, _⟩ := transact_cases tx { s with queue := rest }
      · exact hnext
      · exact absurd hin hout

/-- Settles O24: the contract is an invariant under which every step answers a next state, by induction on the length of the
run. -/
theorem contractKeepingHostNeverStopsTheEngine : Obligations.ContractKeepingHostNeverStopsTheEngine := by
  intro s hs k
  induction k generalizing s with
  | zero => exact ⟨s, rfl⟩
  | succ k ih =>
    obtain ⟨t, ht⟩ := step_next_of_hostKeepsContract hs
    rw [run_succ k ht]
    exact ih t (step_keeps_hostKeepsContract hs ht)

/-! ## Order -/

/-- Settles O21: a step takes the head of the list and does not look at the tail, by induction on the first inputs. -/
theorem laterInputsDoNotMatter : Obligations.LaterInputsDoNotMatter := by
  intro first later s t h
  induction first generalizing s with
  | nil =>
    cases h
    exact ⟨rfl, rfl⟩
  | cons input rest ih =>
    obtain ⟨u, hu, hrun⟩ := run_succ_inv h
    obtain ⟨hqueue, hstep⟩ := step_cons (rest ++ later) hu
    have hself : u = { u with queue := rest } := by rw [← hqueue]
    rw [hself] at hrun
    obtain ⟨hleft, hlater⟩ := ih u hrun
    exact ⟨hleft, (run_succ rest.length hstep).trans hlater⟩

end Sys2Proof.Machine
end

section
/-! PROOFS. Reads and word accesses at the host port (20_memory.md R54, R56, R57, R59). -/

namespace Sys2Proof.Machine

open Sys2Proof.Spec

/-! ## Reads -/

/-- No register's read value depends on the host's lists (log 1, log 3). -/
theorem readPort_withHostLists (s : State) (inputs : List HostInput) (data : List Word) (p : PortReg) :
    readPort { s with queue := inputs, replies := data } p = readPort s p := by
  cases p <;> rfl

/-- A read answers what it answers at the same engine with any other lists. -/
theorem step_read_withHostLists {s : State} {off : Offset} {p : PortReg} (rest : List HostInput) (data : List Word)
    (ha : off.toNat % 8 = 0) (hp : portReg s.n off = some p) :
    step { s with queue := .txn (.read 64 off) :: rest, replies := data } =
      .next { s with queue := rest, replies := data ++ [readPort s p] } := by
  rw [step_of_read (s := { s with queue := .txn (.read 64 off) :: rest, replies := data }) rfl ha hp,
    readPort_withHostLists]

/-- A read that is performed is a 64-bit one at a mapped offset. -/
theorem mapped_of_read_step {s t : State} {width : Nat} {off : Offset} {rest : List HostInput}
    (hq : s.queue = .txn (.read width off) :: rest) (h : step s = .next t) :
    width = 64 ∧ off.toNat % 8 = 0 ∧ ∃ p, portReg s.n off = some p := by
  have hin : (Txn.read width off).Admitted s.n := by
    by_contra hout
    obtain ⟨reason, hr⟩ := (step_refused_iff hq).mpr hout
    cases hr.symm.trans h
  obtain ⟨hw, ha, hp⟩ := hin
  exact ⟨hw, ha, Option.isSome_iff_exists.mp hp⟩

/-- Settles O16: a read changes the host's lists only, and no read value depends on them. -/
theorem readsHaveNoSideEffects : Obligations.ReadsHaveNoSideEffects := by
  intro s t width off rest hq h
  obtain ⟨rfl, ha, p, hp⟩ := mapped_of_read_step hq h
  cases (step_of_read hq ha hp).symm.trans h
  refine ⟨sameEngine_withHostLists s rest _, readPort s p, rfl, ?_⟩
  exact step_read_withHostLists rest _ ha hp

/-! ## Words of an operand register -/

/-- Word `j` of an operand lies below its width. -/
theorem word_fits {n : Width} {j : Nat} (hj : j < n.words) : 64 * j + 64 ≤ n.bits := Nat.mul_le_mul_left 64 hj

theorem wordNat_eq_wordOf (s : State) (r : Reg) (j : Nat) : wordNat s r j = (wordOf (s.reg r) j).toNat :=
  (wordOf_toNat (s.reg r) j).symm

/-- A word write sets the word it names and leaves every other word of the register. -/
theorem wordNat_writeWord_same (s : State) (r : Reg) {j j' : Nat} (d : Word) (hj : j < s.n.words) (hj' : j' < s.n.words) :
    wordNat (s.writeWord r j d) r j' = if j' = j then d.toNat else wordNat s r j' := by
  have hword : wordOf ((s.writeWord r j d).reg r) j' = if j' = j then d else wordOf (s.reg r) j' := by
    rw [State.writeWord, reg_write_same]
    exact wordOf_withWord (s.reg r) j j' d (word_fits hj) (word_fits hj')
  rw [wordNat_eq_wordOf, wordNat_eq_wordOf, hword]
  exact apply_ite BitVec.toNat _ _ _

theorem readReturns_wordNat (s : State) (r : Reg) {j : Nat} (hj : j < s.n.words) :
    ReadReturns s (offWord r j) (wordNat s r j) := by
  rw [wordNat_eq_wordOf]
  exact readReturns_readPort (offWord_aligned r j) (portReg_offWord s.n r hj)

theorem step_of_word_write {s : State} {r : Reg} {j : Nat} {data : Word} {rest : List HostInput} (hj : j < s.n.words)
    (hq : NextWrite s (offWord r j) data rest) :
    step s = .next (State.writeWord { s with queue := rest } r j data) :=
  step_of_write hq (offWord_aligned r j) (portReg_offWord s.n r hj)

/-- Settles O14: the access names word `j` of `x[r]`, and a word write touches that word only. -/
theorem wordAccessTouchesOneWord : Obligations.WordAccessTouchesOneWord := by
  intro s r j hj
  refine ⟨readReturns_wordNat s r hj, fun data rest hq => ?_⟩
  exact ⟨_, step_of_word_write hj hq, rfl, rfl, rfl, rfl,
    fun q hqr => uval_writeWord_other { s with queue := rest } j data hqr,
    fun j' hj' => wordNat_writeWord_same { s with queue := rest } r data hj hj'⟩

/-! ## Bytes of an operand register -/

/-- A host address inside the window names its distance from the base. -/
theorem busOffset_base_add (base : Nat) {d : Nat} (hd : d < windowBytes) :
    busOffset base (base + d) = some (BitVec.ofNat 12 d) := by
  rw [busOffset, if_pos ⟨by omega, by omega⟩, Nat.add_sub_cancel_left]

theorem byteLane_toNat (data : Word) (k : Nat) : (byteLane data k).toNat = data.toNat / 256 ^ k % 256 := by
  simp only [byteLane, BitVec.extractLsb'_toNat, Nat.shiftRight_eq_div_pow, pow_mul, Nat.reducePow]

/-- Byte `k` of a number is byte `k % 8` of its 64-bit word `k / 8`. -/
theorem byte_of_word (v k : Nat) : v / 2 ^ (64 * (k / 8)) % 2 ^ 64 / 256 ^ (k % 8) % 256 = v / 256 ^ k % 256 := by
  have hk : 256 ^ k = 2 ^ (64 * (k / 8)) * 256 ^ (k % 8) := by
    rw [pow_mul, show 2 ^ 64 = 256 ^ 8 from rfl, ← pow_mul, ← pow_add, Nat.div_add_mod]
  have hword : 2 ^ 64 = 256 ^ (k % 8) * (256 * 256 ^ (7 - k % 8)) := by
    rw [← pow_succ', ← pow_add, show k % 8 + (7 - k % 8 + 1) = 8 by omega]
    rfl
  rw [hword, Nat.mod_mul_right_div_self, Nat.mod_mul_right_mod, Nat.div_div_eq_div_mul, hk]

/-- The 64-bit access that covers byte `k` of the slot of `x[r]` is that of word `k / 8`. -/
theorem slot_offset_aligned_down (r : Reg) {k : Nat} (hk : k < 64) :
    BitVec.ofNat 12 (0x100 + 0x40 * r.val + k) - BitVec.ofNat 12 (0x100 + 0x40 * r.val + k) % 8#12 = offWord r (k / 8) := by
  have hr := r.isLt
  apply BitVec.eq_of_toNat_eq
  simp only [offWord_toNat r (show k / 8 < 8 by omega), BitVec.toNat_sub, BitVec.toNat_umod, BitVec.toNat_ofNat,
    Nat.reducePow, Nat.reduceMod]
  omega

/-- Byte `k` of the slot of `x[r]` is lane `k % 8` of word `k / 8`. -/
theorem busByte_slot (base : Nat) (s : State) (r : Reg) {k : Nat} (hk : k < 8 * s.n.words) :
    busByte base s (base + 0x100 + 0x40 * r.val + k) = some (byteLane (wordOf (s.reg r) (k / 8)) (k % 8)) := by
  have hr := r.isLt
  have hn := words_le s.n
  have hlane : (BitVec.ofNat 12 (0x100 + 0x40 * r.val + k)).toNat % 8 = k % 8 := by
    rw [BitVec.toNat_ofNat]
    omega
  have hbus : busOffset base (base + 0x100 + 0x40 * r.val + k) = some (BitVec.ofNat 12 (0x100 + 0x40 * r.val + k)) := by
    rw [← busOffset_base_add base (show 0x100 + 0x40 * r.val + k < windowBytes by rw [windowBytes]; omega)]
    congr 1
    omega
  simp only [busByte, hbus, slot_offset_aligned_down r (show k < 64 by omega),
    portReg_offWord s.n r (show k / 8 < s.n.words by omega), hlane, Option.map_some, readPort]

/-- Settles O49: a byte of the slot is a lane of the word that covers it. -/
theorem registerBytesAreLittleEndian : Obligations.RegisterBytesAreLittleEndian := by
  intro base s r k hk
  refine ⟨_, busByte_slot base s r hk, ?_⟩
  rw [byteLane_toNat, wordOf_toNat, byte_of_word]
  rfl

end Sys2Proof.Machine
end

section
/-! PROOFS. The encoder and the decoder are each other's inverse on well-formed commands and on the words that decode, and the
decoder's checks over the whole opcode map (30_encoding.md R70 to R78). -/

namespace Sys2Proof

open Sys2Proof.Machine Sys2Proof.Spec
open Sys2Proof.Laws.MatchesTable (rowOf Statement)

/-! ## Encode, then decode -/

/-- Every command's word has its row's opcode and its format's zero bits. -/
theorem encode_matchesTable (i : Instr) : Statement i := by
  cases i with
  | mov S rd rs1 => exact Laws.MatchesTable.mov S rd rs1
  | ldi S rd imm => exact Laws.MatchesTable.ldi S rd imm
  | add S rd rs1 rs2 => exact Laws.MatchesTable.add S rd rs1 rs2
  | sub S rd rs1 rs2 => exact Laws.MatchesTable.sub S rd rs1 rs2
  | neg S rd rs1 => exact Laws.MatchesTable.neg S rd rs1
  | mul S rd rs1 rs2 => exact Laws.MatchesTable.mul S rd rs1 rs2
  | mulfw S rd rd2 rs1 rs2 => exact Laws.MatchesTable.mulfw S rd rd2 rs1 rs2
  | div S rd rs1 rs2 => exact Laws.MatchesTable.div S rd rs1 rs2
  | rem S rd rs1 rs2 => exact Laws.MatchesTable.rem S rd rs1 rs2
  | divrem S rd rd2 rs1 rs2 => exact Laws.MatchesTable.divrem S rd rd2 rs1 rs2
  | divfw S rd rd2 rs1 rs2 rs3 => exact Laws.MatchesTable.divfw S rd rd2 rs1 rs2 rs3
  | not S rd rs1 => exact Laws.MatchesTable.not S rd rs1
  | and S rd rs1 rs2 => exact Laws.MatchesTable.and S rd rs1 rs2
  | or S rd rs1 rs2 => exact Laws.MatchesTable.or S rd rs1 rs2
  | xor S rd rs1 rs2 => exact Laws.MatchesTable.xor S rd rs1 rs2
  | shl S rd rs1 rs2 => exact Laws.MatchesTable.shl S rd rs1 rs2
  | shr S rd rs1 rs2 => exact Laws.MatchesTable.shr S rd rs1 rs2
  | bswap S rd rs1 => exact Laws.MatchesTable.bswap S rd rs1
  | cmp S rd rs1 rs2 => exact Laws.MatchesTable.cmp S rd rs1 rs2
  | isz S rd rs1 => exact Laws.MatchesTable.isz S rd rs1
  | isneg S rd rs1 => exact Laws.MatchesTable.isneg S rd rs1
  | isodd S rd rs1 => exact Laws.MatchesTable.isodd S rd rs1

/-- The row of a command's word is the command's own, and it reads the command from the word's fields. -/
theorem encode_row (i : Instr) : ∃ command,
    opcodeRow (opField (encode i)) = some ((rowOf i).2, command) ∧ command (fieldsOf (encode i)) = i := by
  cases i with
  | ldi S rd imm =>
    obtain ⟨hop, hS, hrd, himm⟩ := fields_of_packI imm rd S 0x02#6
    refine ⟨_, congrArg opcodeRow hop, ?_⟩
    simp only [encode, hS, hrd, himm]
  | _ =>
    refine ⟨_, congrArg opcodeRow (fields_of_packR _ _ _ _ _ _ _).1, ?_⟩
    simp only [encode, fields_of_packR]

/-- A command's word passes the first two checks of R70, and the third one is its well-formedness. -/
theorem decode_encode (i : Instr) :
    decode (encode i) = if WellFormed i = true then .ok i else .error .destConflict := by
  obtain ⟨command, hrow, hi⟩ := encode_row i
  have hwf := row_wellFormed (fieldsOf (encode i)) hrow
  rw [hi] at hwf
  rw [decode_of_row hrow, if_neg (not_not.mpr (encode_matchesTable i).2), hi, hwf]
  cases (rowOf i).2.twoDest <;> simp [fieldsOf]

/-- Settles O2: the third check of R70 is the only one a command's word can fail. -/
theorem decodeOfEncodeIsTheCommand : Obligations.DecodeOfEncodeIsTheCommand :=
  fun i => ⟨fun hwf => by rw [decode_encode, if_pos hwf], fun hill => by rw [decode_encode, hill]; rfl⟩

/-! ## Decode, then encode -/

/-- The word that a format lays its fields out in, every other bit zero (30_encoding.md R73). -/
def Format.pack (f : Fields) (op : BitVec 6) : Format → CmdWord
  | .r1 => packR 0 0 f.rs1 0 f.rd f.S op
  | .r2 => packR 0 f.rs2 f.rs1 0 f.rd f.S op
  | .r2d => packR 0 f.rs2 f.rs1 f.rd2 f.rd f.S op
  | .r3d => packR f.rs3 f.rs2 f.rs1 f.rd2 f.rd f.S op
  | .i => packI f.imm f.rd f.S op

/-- The encoder lays every command out in its row's format, under its row's opcode. -/
theorem encode_command {op : BitVec 6} {fmt : Format} {command : Fields → Instr} (f : Fields)
    (h : opcodeRow op = some (fmt, command)) : encode (command f) = fmt.pack f op := by
  unfold opcodeRow at h
  split at h
  case h_23 => cases h
  all_goals
    rename_i hop
    cases h
    rw [show op = BitVec.ofNat 6 op.toNat by simp, hop]
    rfl

/-- A word whose must-be-zero bits are zero is laid out from its own fields: each of its bits is in one of them. -/
theorem pack_fieldsOf {fmt : Format} {c : CmdWord} (hz : c &&& fmt.mustBeZero = 0#32) :
    fmt.pack (fieldsOf c) (opField c) = c := by
  have hop := opField_toNat c
  have hS := sField_toNat c
  have hrd : (fieldsOf c).rd.val = c.toNat / 2 ^ 8 % 8 := regField_val 8 c
  have hrd2 : (fieldsOf c).rd2.val = c.toNat / 2 ^ 11 % 8 := regField_val 11 c
  have hrs1 : (fieldsOf c).rs1.val = c.toNat / 2 ^ 14 % 8 := regField_val 14 c
  have hrs2 : (fieldsOf c).rs2.val = c.toNat / 2 ^ 17 % 8 := regField_val 17 c
  have hrs3 : (fieldsOf c).rs3.val = c.toNat / 2 ^ 20 % 8 := regField_val 20 c
  have himm := imm_toNat c
  have hc := c.isLt
  obtain ⟨hbit, hrest⟩ := (mustBeZero_iff fmt c).mp hz
  apply BitVec.eq_of_toNat_eq
  cases fmt with
  | i =>
    rw [Format.pack, packI_toNat, hop, hS, hrd, himm]
    omega
  | _ =>
    rw [Format.pack, packR_toNat]
    simp only [hop, hS, hrd, hrd2, hrs1, hrs2, hrs3, Fin.val_zero] at hrest ⊢
    omega

theorem encode_of_decode {c : CmdWord} {i : Instr} (h : decode c = .ok i) : encode i = c := by
  obtain ⟨fmt, command, hrow, hz, _, rfl⟩ := decode_eq_ok h
  rw [encode_command (fieldsOf c) hrow, pack_fieldsOf hz]

/-- Settles O3: a word that decodes is laid out from its own fields, and it has passed the third check of R70. -/
theorem encodeOfDecodeIsTheWord : Obligations.EncodeOfDecodeIsTheWord :=
  fun _ _ h => ⟨encode_of_decode h, wellFormed_of_decode h⟩

/-! ## The opcode map -/

theorem opcodeRow_eq_none_iff (op : BitVec 6) : opcodeRow op = none ↔ IllegalOpcode op.toNat := by
  rw [← Option.isNone_iff_eq_none]
  unfold IllegalOpcode
  revert op
  decide

theorem decode_illegalOpcode_iff (c : CmdWord) :
    decode c = .error .illegalOpcode ↔ opcodeRow (opField c) = none := by
  cases hrow : opcodeRow (opField c) with
  | none => simp [decode, hrow]
  | some row =>
    obtain ⟨fmt, command⟩ := row
    rw [decode_of_row hrow]
    split
    · simp
    · split <;> simp

/-- The rows that the statements write out from the spec are those of the decoder: a row's mask is its format's must-be-zero
bits and the opcode field. -/
theorem opcodeMap_row : ∀ row ∈ opcodeMap, (opcodeRow (BitVec.ofNat 6 row.op)).map (fun r =>
    (r.1.mustBeZero ||| 0x3F#32, r.1.twoDest)) = some (row.mask, row.two) := by
  decide

theorem and_opcode_mask (c : CmdWord) : c &&& 0x3F#32 = BitVec.ofNat 32 (c.toNat % 64) := by
  apply BitVec.eq_of_toNat_eq
  rw [BitVec.toNat_and, BitVec.toNat_ofNat, BitVec.toNat_ofNat, show 0x3F % 2 ^ 32 = 2 ^ 6 - 1 from rfl,
    Nat.and_two_pow_sub_one_eq_mod]
  omega

/-- A word with the row's opcode matches the row exactly when the must-be-zero bits are zero. -/
theorem and_mask_eq_match_iff (fmt : Format) (c : CmdWord) :
    c &&& (fmt.mustBeZero ||| 0x3F#32) = BitVec.ofNat 32 (c.toNat % 64) ↔ c &&& fmt.mustBeZero = 0#32 := by
  have hdisj : 0x3F#32 &&& fmt.mustBeZero = 0#32 := by cases fmt <;> rfl
  constructor
  · refine and_mustBeZero_of_and_mask (by cases fmt <;> rfl) ?_
    rw [← and_opcode_mask, BitVec.and_assoc, hdisj, BitVec.and_zero]
  · intro hz
    rw [BitVec.and_or_distrib_left, hz, BitVec.zero_or, and_opcode_mask]

theorem regField_eq_iff (c : CmdWord) (lo lo' : Nat) : regField lo c = regField lo' c ↔ field c lo = field c lo' := by
  rw [Fin.ext_iff, regField_val, regField_val, field, field]

/-- Settles O1: the three checks of `decode` in a row's format are the row's mask and its two destinations. -/
theorem decodingFollowsTheOpcodeMap : Obligations.DecodingFollowsTheOpcodeMap := by
  refine ⟨fun c => ?_, fun c row hmem hop => ?_⟩
  · rw [decode_illegalOpcode_iff, opcodeRow_eq_none_iff, opField_toNat]
  · obtain ⟨⟨fmt, command⟩, hrow, heq⟩ := Option.map_eq_some_iff.mp (opcodeMap_row row hmem)
    obtain ⟨hmask, htwo⟩ : fmt.mustBeZero ||| 0x3F#32 = row.mask ∧ fmt.twoDest = row.two := Prod.mk.inj heq
    have hfield : opField c = BitVec.ofNat 6 row.op :=
      BitVec.eq_of_toNat_eq (by rw [opField_toNat, BitVec.toNat_ofNat, ← hop]; omega)
    rw [← hfield] at hrow
    rw [← hmask, ← htwo, ← hop, and_mask_eq_match_iff, ← regField_eq_iff, decode_of_row hrow]
    refine ⟨fun hz => if_pos (mt (and_mask_eq_match_iff fmt c).mpr hz), fun hz ht he => ?_, fun hz hne => ?_⟩
    · rw [if_neg (not_not.mpr hz), if_pos (by simpa [he] using ht)]
    · have hd : decode c = .ok (command (fieldsOf c)) := by
        rw [decode_of_row hrow, if_neg (not_not.mpr hz), if_neg (by simpa using hne)]
      exact ⟨_, (decode_of_row hrow).symm.trans hd, by rw [encode_of_decode hd]⟩

/-- Settles O4: each word is run through `decode`. -/
theorem writtenOutWordsDecode : Obligations.WrittenOutWordsDecode :=
  ⟨rfl, rfl, rfl, rfl, rfl, rfl⟩

/-! ## A word with its `S` bit flipped (30_encoding.md R76) -/

theorem extractLsb'_flipS (c : CmdWord) {lo len : Nat} (h : (0x40#32).extractLsb' lo len = 0#len) :
    (c ^^^ 0x40#32).extractLsb' lo len = c.extractLsb' lo len := by
  rw [BitVec.extractLsb'_xor, h, BitVec.xor_zero]

theorem opField_flipS (c : CmdWord) : opField (c ^^^ 0x40#32) = opField c := extractLsb'_flipS c (by decide)

theorem regField_flipS (c : CmdWord) {lo : Nat} (h : (0x40#32).extractLsb' lo 3 = 0#3) :
    regField lo (c ^^^ 0x40#32) = regField lo c := congrArg BitVec.toFin (extractLsb'_flipS c h)

/-- Flipping bit 6 flips the field `S` and no other. -/
theorem fieldsOf_flipS (c : CmdWord) : fieldsOf (c ^^^ 0x40#32) = { fieldsOf c with S := !(fieldsOf c).S } := by
  simp only [fieldsOf, Fields.mk.injEq]
  refine ⟨?_, regField_flipS c (by decide), regField_flipS c (by decide), regField_flipS c (by decide),
    regField_flipS c (by decide), regField_flipS c (by decide), extractLsb'_flipS c (by decide)⟩
  rw [BitVec.getLsbD_xor, show (0x40#32).getLsbD 6 = true from rfl, Bool.xor_true]

theorem and_mustBeZero_flipS (fmt : Format) (c : CmdWord) :
    (c ^^^ 0x40#32) &&& fmt.mustBeZero = c &&& fmt.mustBeZero := by
  have hdisj : 0x40#32 &&& fmt.mustBeZero = 0#32 := by cases fmt <;> rfl
  apply BitVec.eq_of_getLsbD_eq
  intro k hk
  have hbit := congrArg (fun m => m.getLsbD k) hdisj
  simp only [BitVec.getLsbD_and, BitVec.getLsbD_xor, BitVec.getLsbD_zero] at hbit ⊢
  rw [Bool.and_xor_distrib_right, hbit, Bool.xor_false]

/-- The word with `S` flipped decodes to the row's command with `S` flipped. -/
theorem decode_flipS {c : CmdWord} {i : Instr} (h : decode c = .ok i) : ∃ fmt command,
    opcodeRow (opField c) = some (fmt, command) ∧ i = command (fieldsOf c) ∧
      decode (c ^^^ 0x40#32) = .ok (command { fieldsOf c with S := !(fieldsOf c).S }) := by
  obtain ⟨fmt, command, hrow, hz, hd, rfl⟩ := decode_eq_ok h
  refine ⟨fmt, command, hrow, rfl, ?_⟩
  rw [decode_of_row (by rw [opField_flipS]; exact hrow), and_mustBeZero_flipS, if_neg (not_not.mpr hz),
    regField_flipS c (by decide), regField_flipS c (by decide), if_neg (by simpa using hd), fieldsOf_flipS]

/-- The commands whose `S` the opcode map marks "no" do not look at it. -/
theorem exec_command_of_ignoresS {op : BitVec 6} {fmt : Format} {command : Fields → Instr} (f : Fields) (b : Bool)
    (s : State) (hop : op.toNat ∈ ignoresS) (h : opcodeRow op = some (fmt, command)) :
    exec (command { f with S := b }) s = exec (command f) s := by
  obtain ⟨k, hk, rfl⟩ : ∃ k ∈ ignoresS, op = BitVec.ofNat 6 k := ⟨op.toNat, hop, by simp⟩
  clear hop
  simp only [ignoresS, List.mem_cons, List.not_mem_nil, or_false] at hk
  rcases hk with rfl | rfl | rfl | rfl | rfl | rfl | rfl | rfl | rfl
  all_goals
    cases h
    rfl

theorem runCommand_congr {c c' : CmdWord} {i i' : Instr} {s : State} (h : decode c = .ok i) (h' : decode c' = .ok i')
    (he : exec i s = exec i' s) : runCommand c s = runCommand c' s := by
  simp only [runCommand, h, h', he]

/-- Settles O5: the flipped word decodes to a command that differs in `S` only. -/
theorem ignoredSignBitChangesNothing : Obligations.IgnoredSignBitChangesNothing := by
  rintro c s hop ⟨i, h⟩
  obtain ⟨fmt, command, hrow, rfl, hflip⟩ := decode_flipS h
  rw [← opField_toNat] at hop
  exact ⟨⟨_, hflip⟩, runCommand_congr hflip h (exec_command_of_ignoresS (fieldsOf c) _ s hop hrow)⟩

end Sys2Proof
end

section
/-! PROOFS. The step that runs a command word (30_encoding.md R70, 10_state.md R35; log 1, log 5), and the assembler's rules
(30_encoding.md R79, R80; log 12). -/

namespace Sys2Proof.Machine

open Sys2Proof.Spec

/-! ## The step -/

/-- A command word placed as a table row's bits is read back from the CMD write that carries it. -/
theorem low32_zext_tableWord (c : CmdWord) : low32 (zext 64 (tableWord 32 c.toNat)) = c := by
  have := c.isLt
  apply BitVec.eq_of_toNat_eq
  simp only [low32, zext, tableWord, BitVec.toNat_ofNat, BitVec.toNat_setWidth]
  omega

/-- Settles O6: the step is `runCommand` on the data's low half, which decodes. -/
theorem stepRunsTheDecodedCommand : Obligations.StepRunsTheDecodedCommand := by
  refine ⟨fun s data rest i hq herr hd => (step_of_cmd hq).trans (runCommand_of_ok herr hd), fun i s hwf => ?_⟩
  have hd : decode (low32 (zext 64 (tableWord 32 (encode i).toNat))) = .ok i := by
    rw [low32_zext_tableWord, decode_encode, if_pos hwf]
  exact (step_of_cmd (s := s.withFetchWord 32 (encode i).toNat) rfl).trans (runCommand_of_ok rfl hd)

/-! ## The assembler -/

/-- The range of LDI's immediate is that of the 16-bit patterns in the reading of its suffix. -/
theorem immInRange_eq_fits (S : Bool) (v : Int) : immInRange S v = fits S 16 v := by
  rw [Bool.eq_iff_iff, fits_iff]
  cases S <;> simp [immInRange] <;> omega

/-- LDI assembles, with a suffix, to the 16-bit pattern of its number or to the range error. -/
theorem assemble_ldi (sfx : Suffix) (rd : Reg) (v : Int) : assemble ⟨.ldi, some sfx, [.reg rd, .num v]⟩ =
    if immInRange (decide (sfx = .s)) v then .ok (.ldi (decide (sfx = .s)) rd (bits 16 v)) else .error .immediateRange := by
  cases sfx <;> rfl

theorem immInRange_iff (sfx : Suffix) (v : Int) : immInRange (decide (sfx = .s)) v = true ↔
    if sfx = .s then -32768 ≤ v ∧ v ≤ 32767 else 0 ≤ v ∧ v ≤ 65535 := by
  cases sfx <;> simp [immInRange]

/-- Settles O60: a number in range is the reading of its own 16-bit pattern. -/
theorem assemblerExpandsAndChecksRanges : Obligations.AssemblerExpandsAndChecksRanges := by
  refine ⟨fun rd rs1 rs2 => ⟨rfl, rfl, rfl, rfl, rfl, rfl, rfl⟩, fun sfx rd v => ?_⟩
  rw [← immInRange_iff, assemble_ldi]
  refine ⟨fun hin => ⟨bits 16 v, if_pos hin, ?_⟩, fun hout => if_neg hout⟩
  rw [immInRange_eq_fits] at hin
  have hval := val_bits_of_fits (by decide) hin
  cases sfx with
  | s => exact (val_true _).symm.trans hval
  | u => exact hval

end Sys2Proof.Machine
end

section
/-! PROOFS. What the mask and match of a one-destination row select (30_encoding.md R70 to R75), and the construction commands
MOV and LDI (41_construction.md R100, R101). -/

namespace Sys2Proof

open Sys2Proof.Spec

/-! ## Words that a row's mask and match select -/

/-- A word that a row's mask and match select has the row's opcode and no bit that must be zero, so what is left of decoding
is the third check of R70. -/
theorem decode_of_and_mask {c : CmdWord} {op : Nat} {fmt : Format} {command : Fields → Instr} (hop : op < 64)
    (hrow : opcodeRow (BitVec.ofNat 6 op) = some (fmt, command))
    (hc : c &&& (fmt.mustBeZero ||| 0x3F#32) = BitVec.ofNat 32 op) : decode c =
      if fmt.twoDest && decide (regField 8 c = regField 11 c) then .error .destConflict
      else .ok (command (fieldsOf c)) := by
  have hfield : opField c = BitVec.ofNat 6 op := opField_of_and_mask (by cases fmt <;> rfl) hc
  have hmod : c.toNat % 64 = op := by
    rw [← opField_toNat, hfield, BitVec.toNat_ofNat]
    exact Nat.mod_eq_of_lt hop
  rw [← hmod, and_mask_eq_match_iff] at hc
  rw [← hfield] at hrow
  rw [decode_of_row hrow, if_neg (not_not.mpr hc)]

/-- The row of a format R1 command selects words that decode to it. -/
theorem selectsR1_of_row {op : Nat} {command : Bool → Reg → Reg → Instr} (hop : op < 64)
    (hrow : opcodeRow (BitVec.ofNat 6 op) = some (.r1, fun f => command f.S f.rd f.rs1)) : SelectsR1 op command :=
  fun c hc => ⟨regField 8 c, regField 14 c, decode_of_and_mask hop hrow hc, regField_val 8 c, regField_val 14 c⟩

theorem decode_of_and_mask_ldi {c : CmdWord} (hc : c &&& 0x0000F8BF#32 = 0x00000002#32) :
    decode c = .ok (.ldi (fieldsOf c).S (fieldsOf c).rd (fieldsOf c).imm) :=
  decode_of_and_mask (fmt := .i) (command := fun f => .ldi f.S f.rd f.imm) (by decide) rfl hc

/-- A word with LDI's opcode and a bit that format I marks as zero fails the second check of R70. -/
theorem decode_ldi_reserved {c : CmdWord} (hop : c.toNat % 64 = 0x02) (hz : c &&& Format.i.mustBeZero ≠ 0#32) :
    decode c = .error .reservedField := by
  have hfield : opField c = 0x02#6 := BitVec.eq_of_toNat_eq ((opField_toNat c).trans hop)
  rw [decode_of_row (congrArg opcodeRow hfield), if_pos hz]

namespace Machine

/-! ## Completing a command -/

/-- A one-destination command puts its result into the destination and its flag into `OV`, and nothing else changes. -/
theorem complete_onlyWrites (s : State) (rd : Reg) (v : BitVec s.W) (ov : Bool) :
    ∃ t, complete s rd v ov = .next t ∧ t.uval rd = Machine.uval v ∧ (∀ S, t.val S rd = Machine.val S v) ∧ t.ov = ov ∧
      OnlyWrites [rd] s t := by
  obtain ⟨t, ht, hn, huval, _, hval, hov, herr, hcmd, _, _, hframe⟩ := complete_spec s rd v ov
  exact ⟨t, ht, huval, hval, hov, hn, herr, hcmd, hframe⟩

/-! ## MOV and LDI -/

/-- Settles O25: MOV completes with the pattern of its source. -/
theorem movCopiesTheRegister : Obligations.MovCopiesTheRegister := by
  refine ⟨selectsR1_of_row (by decide) rfl, fun S rd rs1 s => ?_⟩
  obtain ⟨t, ht, huval, _, hov, hframe⟩ := complete_onlyWrites s rd (s.reg rs1) noOverflow
  exact ⟨t, ht, huval, hov, hframe⟩

/-- Extending a pattern the way its reading says keeps the reading (00_scope.md R14). -/
theorem val_immOperand {w : Nat} (hw : 16 ≤ w) (S : Bool) (imm : BitVec 16) : val S (immOperand S w imm) = val S imm := by
  cases S with
  | true =>
    rw [val_true, val_true]
    exact BitVec.toInt_signExtend_of_le hw
  | false => exact congrArg Int.ofNat (BitVec.toNat_setWidth_of_le hw)

/-- The reading of a 16-bit number, by its top bit. -/
theorem val_imm (S : Bool) (imm : BitVec 16) : val S imm =
    if S = true ∧ 2 ^ 15 ≤ imm.toNat then (imm.toNat : Int) - 65536 else (imm.toNat : Int) := by
  cases S with
  | true =>
    simp only [val_true, BitVec.toInt_eq_toNat_cond, true_and]
    split <;> split <;> omega
  | false => simp [val_false]

theorem sixteen_le_W (s : State) : 16 ≤ s.W := (by decide : 16 ≤ 64 * 1).trans (Nat.mul_le_mul_left 64 (words_pos s.n))

/-- Settles O26: LDI completes with the extended immediate, whose reading is that of the 16-bit number. -/
theorem ldiLoadsTheExtendedImmediate : Obligations.LdiLoadsTheExtendedImmediate := by
  refine ⟨fun c hc => ?_, fun c hop hz => decode_ldi_reserved hop hz, fun S rd imm s => ?_⟩
  · exact ⟨_, _, decode_of_and_mask_ldi hc, regField_val 8 c, imm_toNat c⟩
  · obtain ⟨t, ht, _, hval, hov, hframe⟩ := complete_onlyWrites s rd (immOperand S s.W imm) noOverflow
    refine ⟨t, ht, ?_, hov, hframe⟩
    rw [hval, val_immOperand (sixteen_le_W s), val_imm]

end Machine
end Sys2Proof
end

section
/-! PROOFS. The limbs of an operand and the host's word writes that compose one (10_state.md R22; 41_construction.md R102,
R103). -/

namespace Sys2Proof.Machine

open Sys2Proof.Spec

/-! ## The limbs of a pattern -/

theorem highWords_add_lowWords (n : Width) : highWords n + lowWords n = n.words := by
  rw [highWords, lowWords]
  omega

theorem highWords_pos (n : Width) : 0 < highWords n := by cases n <;> decide

/-- The limbs are the whole operand. -/
theorem limb_bits (n : Width) : 64 * highWords n + 64 * lowWords n = n.bits := by
  rw [← Nat.mul_add, highWords_add_lowWords]

theorem uval_lowLimb {n : Width} (v : BitVec n.bits) : uval (lowLimb v) = uval v % 2 ^ (64 * lowWords n) :=
  BitVec.extractLsb'_toNat _ _ _

/-- Nothing of the pattern is above the high limb. -/
theorem uval_highLimb {n : Width} (v : BitVec n.bits) : uval (highLimb v) = uval v / 2 ^ (64 * lowWords n) := by
  have hlt : uval v / 2 ^ (64 * lowWords n) < 2 ^ (64 * highWords n) := by
    rw [Nat.div_lt_iff_lt_mul (by positivity), ← pow_add, limb_bits]
    exact uval_lt v
  rw [← Nat.mod_eq_of_lt hlt, ← Nat.shiftRight_eq_div_pow]
  exact BitVec.extractLsb'_toNat _ _ _

theorem uval_eq_limbs {n : Width} (v : BitVec n.bits) :
    uval v = uval (highLimb v) * 2 ^ (64 * lowWords n) + uval (lowLimb v) := by
  rw [uval_highLimb, uval_lowLimb, Nat.div_add_mod']

/-- The sign bit of an operand is that of its high limb. -/
theorem topBit_highLimb {n : Width} (v : BitVec n.bits) :
    (highLimb v).getLsbD (64 * highWords n - 1) = v.getLsbD (n.bits - 1) := by
  have hpos := highWords_pos n
  have hbits := limb_bits n
  rw [highLimb, BitVec.getLsbD_extractLsb', decide_eq_true (by omega), Bool.true_and]
  congr 1
  omega

theorem sval_eq_limbs {n : Width} (v : BitVec n.bits) :
    sval v = sval (highLimb v) * 2 ^ (64 * lowWords n) + uval (lowLimb v) := by
  simp only [sval, topBit_highLimb]
  rw [uval_eq_limbs v, show 2 ^ n.bits = 2 ^ (64 * highWords n) * 2 ^ (64 * lowWords n) by rw [← pow_add, limb_bits]]
  push_cast
  ring

/-- Settles O47: the limbs are the operand's number cut at bit `64 * L`, and the sign bit goes with the high one. -/
theorem readingsAndLimbsKeepTheValue : Obligations.ReadingsAndLimbsKeepTheValue :=
  fun _ v => ⟨bits_val true v, bits_val false v, rfl, rfl, uval_eq_limbs v, sval_eq_limbs v⟩

/-! ## Composing a register from words -/

/-- Words that are the digits of a number, in base `2^64`, make its low part. -/
theorem ofWords_map_range {k v : Nat} {f : Nat → Word} (h : ∀ j < k, (f j).toNat = v / 2 ^ (64 * j) % 2 ^ 64) :
    ofWords ((List.range k).map f) = v % 2 ^ (64 * k) := by
  rw [← ofWords_toWords]
  congr 1
  refine List.ext_getElem (by simp) fun j hj hj' => BitVec.eq_of_toNat_eq ?_
  rw [toWords_length] at hj'
  rw [← List.getD_eq_getElem (toWords k v) 0#64, getD_toWords k v j hj', List.getElem_map, List.getElem_range, h j hj']

/-- `HW x[r].j <- v` as the next input writes that word and leaves the rest of the list. -/
theorem step_hwWord (s : State) (r : Reg) {j : Nat} (v : Word) (rest : List HostInput) (hj : j < s.n.words) :
    step { s with queue := hwWord r j v :: rest } = .next { s.writeWord r j v with queue := rest } :=
  step_of_word_write (s := { s with queue := hwWord r j v :: rest }) hj rfl

/-- The run of the word writes of any list of words: the listed words hold what was written, the others what they held. -/
theorem run_word_writes (r : Reg) (d : Nat → Word) (order : List Nat) (s : State) (horder : ∀ j ∈ order, j < s.n.words) :
    ∃ t, Host.Core.run core order.length { s with queue := order.map fun j => hwWord r j (d j) } = .next t ∧ t.n = s.n ∧
      ∀ j, j < s.n.words → wordNat t r j = if j ∈ order then (d j).toNat else wordNat s r j := by
  induction order generalizing s with
  | nil => exact ⟨_, rfl, rfl, fun _ _ => rfl⟩
  | cons i order ih =>
    obtain ⟨hi, hrest⟩ := List.forall_mem_cons.mp horder
    obtain ⟨t, ht, hn, hwords⟩ := ih (s.writeWord r i (d i)) hrest
    refine ⟨t, (run_succ order.length (step_hwWord s r (d i) _ hi)).trans ht, hn, fun j hj => ?_⟩
    rw [hwords j hj, wordNat_writeWord_same s r (d i) hi hj]
    by_cases hji : j = i <;> simp [hji]

/-- Settles O48: after the run every word of `x[r]` holds what was written to it, and a limb is made of its words. That no word
is written twice is not needed, because the data depend on the word only. -/
theorem limbRoundTrip : Obligations.LimbRoundTrip := by
  intro s r order d _ horder
  obtain ⟨t, ht, hn, hwords⟩ := run_word_writes r d order s fun j => (horder j).mp
  refine ⟨t, ht, ?_⟩
  have hd : ∀ j < t.n.words, (d j).toNat = t.uval r / 2 ^ (64 * j) % 2 ^ 64 := fun j hj => by
    rw [hn] at hj
    have hj' := hwords j hj
    rw [if_pos ((horder j).mpr hj)] at hj'
    exact hj'.symm
  have hlimbs := highWords_add_lowWords t.n
  rw [← hn]
  constructor
  · rw [uval_lowLimb]
    exact (ofWords_map_range fun j hj => hd j (by omega)).symm
  · have hhigh := uval_lt (highLimb (t.reg r))
    rw [← Nat.mod_eq_of_lt hhigh, uval_highLimb]
    refine (ofWords_map_range fun j hj => ?_).symm
    rw [hd _ (by omega), Nat.mul_add, pow_add, ← Nat.div_div_eq_div_mul]
    rfl

end Sys2Proof.Machine
end

section
/-! PROOFS. What the mask and match of a format R2 row select (30_encoding.md R70 to R75), ADD, SUB and NEG (42_addsub.md R120 to
R122), and the inverse law (R125). -/

namespace Sys2Proof

open Sys2Proof.Spec

/-- The row of a format R2 command selects words that decode to it. -/
theorem selectsR2_of_row {op : Nat} {command : Bool → Reg → Reg → Reg → Instr} (hop : op < 64)
    (hrow : opcodeRow (BitVec.ofNat 6 op) = some (.r2, fun f => command f.S f.rd f.rs1 f.rs2)) : SelectsR2 op command :=
  fun c hc => ⟨regField 8 c, regField 14 c, regField 17 c, decode_of_and_mask hop hrow hc, regField_val 8 c,
    regField_val 14 c, regField_val 17 c⟩

namespace Machine

/-! ## Commands that report overflow -/

/-- A one-destination command that reports leaves its exact result modulo `2^W`, and the flag says whether it fits. -/
theorem complete_bits_overflow (s : State) (rd : Reg) (S : Bool) (m : Int) :
    ∃ t, complete s rd (bits s.W m) (overflow S s.W m) = .next t ∧ (t.uval rd : Int) = m % 2 ^ s.W ∧
      (t.ov = true ↔ ¬ Fits S s.W m) ∧ OnlyWrites [rd] s t := by
  obtain ⟨t, ht, huval, _, hov, hframe⟩ := complete_onlyWrites s rd (bits s.W m) (overflow S s.W m)
  refine ⟨t, ht, ?_, ?_, hframe⟩
  · rw [huval, uval_bits]
  · rw [hov]
    exact overflow_iff S s.W m

/-- Settles O27: ADD completes with the exact sum. -/
theorem addWrapsAndReportsOverflow : Obligations.AddWrapsAndReportsOverflow :=
  ⟨selectsR2_of_row (by decide) rfl, fun S rd rs1 rs2 s => complete_bits_overflow s rd S (s.val S rs1 + s.val S rs2)⟩

/-- Settles O28: SUB completes with the exact difference. -/
theorem subWrapsAndReportsOverflow : Obligations.SubWrapsAndReportsOverflow :=
  ⟨selectsR2_of_row (by decide) rfl, fun S rd rs1 rs2 s => complete_bits_overflow s rd S (s.val S rs1 - s.val S rs2)⟩

/-- The negated reading does not fit exactly for the least signed pattern, and for every unsigned one but zero. -/
theorem not_fits_neg_val_iff {w : Nat} (hw : 0 < w) (S : Bool) (v : BitVec w) :
    ¬ Fits S w (0 - val S v) ↔ if S = true then sval v = -(2 ^ (w - 1) : Int) else uval v ≠ 0 := by
  cases S with
  | true =>
    obtain ⟨hlo, hhi⟩ := sval_range hw v
    simp only [Fits, val, if_true]
    omega
  | false =>
    have hlt : (uval v : Int) < 2 ^ w := by exact_mod_cast uval_lt v
    simp only [Fits, val, Bool.false_eq_true, if_false]
    omega

/-- Settles O29: NEG completes with the exact negation. -/
theorem negNegatesAndReportsOverflow : Obligations.NegNegatesAndReportsOverflow := by
  refine ⟨selectsR1_of_row (by decide) rfl, fun S rd rs1 s => ?_⟩
  obtain ⟨t, ht, huval, hov, hframe⟩ := complete_bits_overflow s rd S (0 - s.val S rs1)
  exact ⟨t, ht, huval, hov.trans (not_fits_neg_val_iff (W_pos s) S (s.reg rs1)), hframe⟩

/-! ## The inverse law -/

/-- A command keeps the reading of every register but its destinations. -/
theorem val_of_onlyWrites {rds : List Reg} {s t : State} (h : OnlyWrites rds s t) (S : Bool) {r : Reg} (hr : r ∉ rds) :
    t.val S r = s.val S r := by
  obtain ⟨hn, _, _, hframe⟩ := h
  cases s
  cases t
  simp only at hn
  subst hn
  exact congrArg (Machine.val S) (uval_inj (hframe r hr))

/-- Settles O44: modulo `2^W` the sum less the second operand is the first one. -/
theorem subUndoesAdd : Obligations.SubUndoesAdd := by
  intro S rd re rs1 rs2 s hne
  obtain ⟨t, ht, hsum, _, hframe⟩ := complete_bits_overflow s rd S (s.val S rs1 + s.val S rs2)
  obtain ⟨u, hu, hdiff, _⟩ := complete_bits_overflow t re S (t.val S rd - t.val S rs2)
  refine ⟨t, u, ht, hu, ?_⟩
  have hW : t.W = s.W := congrArg Width.bits hframe.1
  have hrs2 : t.val S rs2 = s.val S rs2 := val_of_onlyWrites hframe S (by simpa using hne.symm)
  have hrd : t.val S rd % 2 ^ s.W = (s.val S rs1 + s.val S rs2) % 2 ^ s.W := by
    rw [← hsum, ← hW]
    exact val_emod S (t.reg rd)
  have hundo : (u.uval re : Int) = s.uval rs1 := by
    calc (u.uval re : Int) = (t.val S rd - s.val S rs2) % 2 ^ s.W := by rw [hdiff, hrs2, hW]
      _ = (s.val S rs1 + s.val S rs2 - s.val S rs2) % 2 ^ s.W := (Int.emod_sub_cancel_right _).mpr hrd
      _ = s.uval rs1 := by rw [add_sub_cancel_right]; exact val_emod S (s.reg rs1)
  exact_mod_cast hundo

end Machine
end Sys2Proof
end

section
/-! PROOFS. The ripple adder and subtractor and their overflow rules (42_addsub.md R123, R124) against the exact sum and
difference. -/

namespace Sys2Proof.Machine

open Sys2Proof.Spec

/-! ## The ripple on word lists -/

/-- The result word and the carry out are the two digits of the sum. -/
theorem addc_value (a b : Word) (c : Bool) :
    (addc a b c).1.toNat + 2 ^ 64 * (addc a b c).2.toNat = a.toNat + b.toNat + c.toNat := by
  have ha := a.isLt
  have hb := b.isLt
  have hc := c.toNat_lt
  simp only [addc, BitVec.toNat_ofNat]
  by_cases hcarry : 2 ^ 64 ≤ a.toNat + b.toNat + c.toNat
  · rw [decide_eq_true hcarry, Bool.toNat_true]
    omega
  · rw [decide_eq_false hcarry, Bool.toNat_false]
    omega

/-- The result word and what was taken away make the first word and what was borrowed. -/
theorem subb_value (a b : Word) (c : Bool) :
    (subb a b c).1.toNat + (b.toNat + c.toNat) = a.toNat + 2 ^ 64 * (subb a b c).2.toNat := by
  have ha := a.isLt
  have hb := b.isLt
  have hc := c.toNat_lt
  have hr : ((subb a b c).1.toNat : Int) = ((a.toNat : Int) - b.toNat - c.toNat) % 2 ^ 64 := uval_bits _
  by_cases hborrow : (a.toNat : Int) - b.toNat - c.toNat < 0
  · rw [show (subb a b c).2 = true from decide_eq_true hborrow, Bool.toNat_true]
    omega
  · rw [show (subb a b c).2 = false from decide_eq_false hborrow, Bool.toNat_false]
    omega

/-- One word of the adder: the carry out of word 0 goes into the rest. -/
theorem addRipple_cons (a b : Word) (as bs : List Word) (c : Bool) : addRipple (a :: as) (b :: bs) c =
    ((addc a b c).1 :: (addRipple as bs (addc a b c).2).1, (addRipple as bs (addc a b c).2).2) := rfl

theorem subRipple_cons (a b : Word) (as bs : List Word) (c : Bool) : subRipple (a :: as) (b :: bs) c =
    ((subb a b c).1 :: (subRipple as bs (subb a b c).2).1, (subRipple as bs (subb a b c).2).2) := rfl

/-- The adder's result words and its carry out make the sum. -/
theorem addRipple_value {as bs : List Word} (h : as.length = bs.length) (c : Bool) :
    (addRipple as bs c).1.length = as.length ∧
    ofWords (addRipple as bs c).1 + 2 ^ (64 * as.length) * (addRipple as bs c).2.toNat =
      ofWords as + ofWords bs + c.toNat := by
  induction as generalizing bs c with
  | nil =>
    obtain rfl := List.length_eq_zero_iff.mp h.symm
    simp [addRipple, ofWords]
  | cons a as ih =>
    obtain ⟨b, bs, rfl⟩ := List.exists_cons_of_length_eq_add_one h.symm
    obtain ⟨hlen, hrest⟩ := ih (Nat.succ.inj h) (addc a b c).2
    have hword := addc_value a b c
    rw [addRipple_cons]
    refine ⟨congrArg Nat.succ hlen, ?_⟩
    simp only [ofWords, List.length_cons, Nat.mul_succ, pow_add]
    linear_combination hword + 2 ^ 64 * hrest

/-- The subtractor's result words and what was taken away make the first operand and what was borrowed. -/
theorem subRipple_value {as bs : List Word} (h : as.length = bs.length) (c : Bool) :
    (subRipple as bs c).1.length = as.length ∧
    ofWords (subRipple as bs c).1 + (ofWords bs + c.toNat) =
      ofWords as + 2 ^ (64 * as.length) * (subRipple as bs c).2.toNat := by
  induction as generalizing bs c with
  | nil =>
    obtain rfl := List.length_eq_zero_iff.mp h.symm
    simp [subRipple, ofWords]
  | cons a as ih =>
    obtain ⟨b, bs, rfl⟩ := List.exists_cons_of_length_eq_add_one h.symm
    obtain ⟨hlen, hrest⟩ := ih (Nat.succ.inj h) (subb a b c).2
    have hword := subb_value a b c
    rw [subRipple_cons]
    refine ⟨congrArg Nat.succ hlen, ?_⟩
    simp only [ofWords, List.length_cons, Nat.mul_succ, pow_add]
    linear_combination hword + 2 ^ 64 * hrest

/-! ## The datapaths on operands -/

theorem ofWords_operand {n : Width} (v : BitVec n.bits) : ofWords (toWords n.words (uval v)) = uval v :=
  ofWords_toWords_of_lt (uval_lt v)

/-- A number below `2^W` is the value of its bits. -/
theorem uval_bits_of_lt {w m : Nat} (h : m < 2 ^ w) : uval (bits w m) = m := by
  rw [uval_bits_natCast, Nat.mod_eq_of_lt h]

/-- The adder's result and carry are the two digits of the sum, in base `2^W`. -/
theorem addDatapath_value (n : Width) (a b : BitVec n.bits) :
    uval (addDatapath n a b).1 + 2 ^ n.bits * (addDatapath n a b).2.toNat = uval a + uval b := by
  obtain ⟨hlen, hsum⟩ := addRipple_value (as := toWords n.words (uval a)) (bs := toWords n.words (uval b)) (by simp) false
  have hlt := ofWords_lt (addRipple (toWords n.words (uval a)) (toWords n.words (uval b)) false).1
  rw [toWords_length] at hlen hsum
  rw [hlen] at hlt
  rw [ofWords_operand, ofWords_operand, ← uval_bits_of_lt hlt] at hsum
  exact hsum

/-- The subtractor's result and the second operand make the first one and the borrow. -/
theorem subDatapath_value (n : Width) (a b : BitVec n.bits) :
    uval (subDatapath n a b).1 + uval b = uval a + 2 ^ n.bits * (subDatapath n a b).2.toNat := by
  obtain ⟨hlen, hdiff⟩ := subRipple_value (as := toWords n.words (uval a)) (bs := toWords n.words (uval b)) (by simp) false
  have hlt := ofWords_lt (subRipple (toWords n.words (uval a)) (toWords n.words (uval b)) false).1
  rw [toWords_length] at hlen hdiff
  rw [hlen] at hlt
  rw [ofWords_operand, ofWords_operand, ← uval_bits_of_lt hlt] at hdiff
  exact hdiff

/-- The adder gives the library's sum of patterns. -/
theorem addDatapath_fst (n : Width) (a b : BitVec n.bits) : (addDatapath n a b).1 = a + b := by
  apply uval_inj
  calc uval (addDatapath n a b).1 = (uval a + uval b) % 2 ^ n.bits := by
        rw [← addDatapath_value, Nat.add_mul_mod_self_left, Nat.mod_eq_of_lt (uval_lt _)]
    _ = uval (a + b) := (BitVec.toNat_add a b).symm

/-- The subtractor gives the library's difference of patterns. -/
theorem subDatapath_fst (n : Width) (a b : BitVec n.bits) : (subDatapath n a b).1 = a - b := by
  rw [eq_sub_iff_add_eq]
  apply uval_inj
  calc uval ((subDatapath n a b).1 + b) = (uval (subDatapath n a b).1 + uval b) % 2 ^ n.bits := BitVec.toNat_add _ b
    _ = uval a := by rw [subDatapath_value, Nat.add_mul_mod_self_left, Nat.mod_eq_of_lt (uval_lt a)]

theorem uval_subDatapath (n : Width) (a b : BitVec n.bits) :
    (uval (subDatapath n a b).1 : Int) = ((uval a : Int) - uval b) % 2 ^ n.bits := by
  have hdiff : (uval (subDatapath n a b).1 + uval b : Int) = uval a + 2 ^ n.bits * (subDatapath n a b).2.toNat := by
    exact_mod_cast subDatapath_value n a b
  calc (uval (subDatapath n a b).1 : Int) = uval (subDatapath n a b).1 % 2 ^ n.bits := (val_emod false _).symm
    _ = (uval a - uval b + 2 ^ n.bits * (subDatapath n a b).2.toNat) % 2 ^ n.bits := by
        congr 1
        linear_combination hdiff
    _ = (uval a - uval b) % 2 ^ n.bits := Int.add_mul_emod_self_left _ _ _

/-- The carry out is 1 exactly when the sum needs the digit above the operand. -/
theorem addDatapath_carry (n : Width) (a b : BitVec n.bits) :
    (addDatapath n a b).2 = true ↔ 2 ^ n.bits ≤ uval a + uval b := by
  have hsum := addDatapath_value n a b
  have hlt := uval_lt (addDatapath n a b).1
  cases hc : (addDatapath n a b).2 with
  | true =>
    rw [hc, Bool.toNat_true, mul_one] at hsum
    exact iff_of_true rfl (by omega)
  | false =>
    rw [hc, Bool.toNat_false, mul_zero] at hsum
    exact iff_of_false Bool.false_ne_true (by omega)

/-- The borrow out is 1 exactly when the second operand is the larger one. -/
theorem subDatapath_borrow (n : Width) (a b : BitVec n.bits) : (subDatapath n a b).2 = true ↔ uval a < uval b := by
  have hdiff := subDatapath_value n a b
  have hlt := uval_lt (subDatapath n a b).1
  cases hc : (subDatapath n a b).2 with
  | true =>
    rw [hc, Bool.toNat_true, mul_one] at hdiff
    exact iff_of_true rfl (by omega)
  | false =>
    rw [hc, Bool.toNat_false, mul_zero] at hdiff
    exact iff_of_false Bool.false_ne_true (by omega)

/-! ## The overflow rules (42_addsub.md R124) -/

section
variable {w : Nat} (a b : BitVec w)

theorem topBit_eq_msb : topBit a = a.msb := (BitVec.msb_eq_getLsbD_last a).symm

/-- The signed rule of ADD is the library's test on the sign bits. -/
theorem addOvRule_true (c : Bool) : addOvRule true a b (a + b) c = BitVec.saddOverflow a b := by
  simp only [addOvRule, if_true, topBit_eq_msb, BitVec.saddOverflow_eq, bne]

/-- The signed rule of SUB is the library's test on the sign bits. -/
theorem subOvRule_true (c : Bool) : subOvRule true a b (a - b) c = BitVec.ssubOverflow a b := by
  simp only [subOvRule, if_true, topBit_eq_msb, BitVec.ssubOverflow_eq]
  cases a.msb <;> cases b.msb <;> simp

theorem saddOverflow_iff_not_fits : BitVec.saddOverflow a b = true ↔ ¬ Fits true w (val true a + val true b) := by
  simp only [BitVec.saddOverflow, Fits, val_true, if_true, Bool.or_eq_true, decide_eq_true_eq]
  omega

theorem ssubOverflow_iff_not_fits : BitVec.ssubOverflow a b = true ↔ ¬ Fits true w (val true a - val true b) := by
  simp only [BitVec.ssubOverflow, Fits, val_true, if_true, Bool.or_eq_true, decide_eq_true_eq]
  omega

/-- An unsigned sum cannot be too small. -/
theorem not_fits_unsigned_add_iff : ¬ Fits false w (val false a + val false b) ↔ 2 ^ w ≤ uval a + uval b := by
  have hcast : (2 : Int) ^ w = (2 ^ w : Nat) := by push_cast; rfl
  simp only [Fits, val, Bool.false_eq_true, if_false]
  omega

/-- An unsigned difference cannot be too large. -/
theorem not_fits_unsigned_sub_iff : ¬ Fits false w (val false a - val false b) ↔ uval a < uval b := by
  have hlt : (uval a : Int) < 2 ^ w := by exact_mod_cast uval_lt a
  simp only [Fits, val, Bool.false_eq_true, if_false]
  omega

end

/-- Settles O50: the unsigned rules are the carry and the borrow, the signed ones compare sign bits. -/
theorem rippleAdderAgrees : Obligations.RippleAdderAgrees := by
  intro n a b
  have hcarry := addDatapath_carry n a b
  have hborrow := subDatapath_borrow n a b
  refine ⟨?_, hcarry, uval_subDatapath n a b, hborrow, fun S => ?_⟩
  · rw [addDatapath_fst]
    exact BitVec.toNat_add a b
  · cases S with
    | true =>
      rw [addDatapath_fst, subDatapath_fst, addOvRule_true, subOvRule_true]
      exact ⟨saddOverflow_iff_not_fits a b, ssubOverflow_iff_not_fits a b⟩
    | false => exact ⟨hcarry.trans (not_fits_unsigned_add_iff a b).symm, hborrow.trans (not_fits_unsigned_sub_iff a b).symm⟩

end Sys2Proof.Machine
end

section
/-! PROOFS. What the mask and match of a format R2D row select (30_encoding.md R70 to R75, R78), MUL and MULFW (43_multiply.md
R140, R141), and the sign law (R147). -/

namespace Sys2Proof

open Sys2Proof.Spec

/-- The row of a format R2D command selects words that decode to it, unless they name one destination twice. -/
theorem selectsR2D_of_row {op : Nat} {command : Bool → Reg → Reg → Reg → Reg → Instr} (hop : op < 64)
    (hrow : opcodeRow (BitVec.ofNat 6 op) = some (.r2d, fun f => command f.S f.rd f.rd2 f.rs1 f.rs2)) :
    SelectsR2D op command := by
  intro c hc
  have hdecode := decode_of_and_mask hop hrow hc
  simp only [Format.twoDest, Bool.true_and, decide_eq_true_eq, regField_eq_iff] at hdecode
  exact ⟨fun hsame => hdecode.trans (if_pos hsame), fun hne => ⟨regField 8 c, regField 11 c, regField 14 c, regField 17 c,
    hdecode.trans (if_neg hne), regField_val 8 c, regField_val 11 c, regField_val 14 c, regField_val 17 c⟩⟩

namespace Machine

/-! ## MUL -/

/-- Settles O30: MUL completes with the exact product. -/
theorem mulKeepsTheLowHalfAndReportsOverflow : Obligations.MulKeepsTheLowHalfAndReportsOverflow :=
  ⟨selectsR2_of_row (by decide) rfl, fun S rd rs1 rs2 s => complete_bits_overflow s rd S (s.val S rs1 * s.val S rs2)⟩

/-! ## The two halves of a product -/

theorem uval_productLow (w : Nat) (p : Int) : (uval (productLow w p) : Int) = p % 2 ^ w := by
  have hpos : (0 : Int) < 2 ^ w := by positivity
  have hemod : ((emod p (2 ^ w) : Nat) : Int) = p % 2 ^ w := by
    rw [emod, Int.toNat_of_nonneg (by exact_mod_cast Int.emod_nonneg p hpos.ne')]
    push_cast
    rfl
  rw [productLow, uval_bits, hemod, Int.emod_emod_of_dvd _ (dvd_refl _)]

theorem productHigh_eq (w : Nat) (p : Int) : productHigh w p = bits w (p / 2 ^ w) := by
  simp [productHigh, floorDiv]

/-- The high half of a product of two readings fits, so MULFW loses nothing. -/
theorem fits_mul_val_div {w : Nat} (hw : 0 < w) (S : Bool) (a b : BitVec w) :
    fits S w (val S a * val S b / 2 ^ w) = true := by
  have hpos : (0 : Int) < 2 ^ w := by positivity
  have ha := (fits_iff S w _).1 (fits_val hw S a)
  have hb := (fits_iff S w _).1 (fits_val hw S b)
  rw [fits_iff, Int.le_ediv_iff_mul_le hpos, Int.le_ediv_iff_mul_le hpos, Int.ediv_lt_iff_lt_mul hpos,
    Int.ediv_lt_iff_lt_mul hpos]
  cases S with
  | true =>
    have hdouble : (2 : Int) ^ w = 2 * 2 ^ (w - 1) := by rw [← pow_succ', Nat.sub_add_cancel hw]
    have hhalf : (0 : Int) < 2 ^ (w - 1) := by positivity
    simp only [if_true] at ha hb ⊢
    have habs : |val true a * val true b| ≤ 2 ^ (w - 1) * 2 ^ (w - 1) := by
      rw [abs_mul]
      exact mul_le_mul (abs_le.mpr ⟨ha.1, ha.2.le⟩) (abs_le.mpr ⟨hb.1, hb.2.le⟩) (abs_nonneg _) hhalf.le
    obtain ⟨hlo, hhi⟩ := abs_le.mp habs
    have hsq : (0 : Int) < 2 ^ (w - 1) * 2 ^ (w - 1) := by positivity
    rw [hdouble]
    constructor <;> linarith
  | false =>
    simp only [Bool.false_eq_true, if_false] at ha hb ⊢
    exact ⟨by simpa using mul_nonneg ha.1 hb.1, mul_lt_mul'' ha.2 hb.2 ha.1 hb.1⟩

/-- The high half read with `S` and the low half read unsigned make the exact product. -/
theorem product_of_halves {w : Nat} (hw : 0 < w) (S : Bool) (a b : BitVec w) :
    val S (productHigh w (val S a * val S b)) * 2 ^ w + uval (productLow w (val S a * val S b)) = val S a * val S b := by
  rw [productHigh_eq, val_bits_of_fits hw (fits_mul_val_div hw S a b), uval_productLow]
  exact Int.ediv_mul_add_emod _ _

/-- A command with two different destinations puts its results into them and its flag into `OV`, and nothing else changes. -/
theorem complete2_onlyWrites (s : State) {rd rd2 : Reg} (v v2 : BitVec s.W) (ov : Bool) (hne : rd ≠ rd2) :
    ∃ t, complete2 s rd v rd2 v2 ov = .next t ∧ (∀ S, t.val S rd = Machine.val S v) ∧ t.uval rd2 = Machine.uval v2 ∧
      (∀ S, t.val S rd2 = Machine.val S v2) ∧ t.ov = ov ∧ OnlyWrites [rd, rd2] s t := by
  obtain ⟨t, ht, hn, _, huval2, hval, hval2, hov, herr, hcmd, _, _, hframe⟩ := complete2_spec s rd rd2 v v2 ov hne
  exact ⟨t, ht, hval, huval2, hval2, hov, hn, herr, hcmd, hframe⟩

/-- Settles O31: MULFW completes with both halves of the exact product. -/
theorem mulfwGivesTheWholeProduct : Obligations.MulfwGivesTheWholeProduct := by
  refine ⟨selectsR2D_of_row (by decide) rfl, fun S rd rd2 rs1 rs2 s hne => ?_⟩
  obtain ⟨t, ht, hval, huval2, _, hov, hframe⟩ := complete2_onlyWrites s (productHigh s.W (s.val S rs1 * s.val S rs2))
    (productLow s.W (s.val S rs1 * s.val S rs2)) noOverflow hne
  refine ⟨t, (guardDest_of_ne _ s _ hne).trans ht, ?_, hov, hframe⟩
  rw [hval, huval2]
  exact product_of_halves (W_pos s) S (s.reg rs1) (s.reg rs2)

/-! ## The sign law -/

/-- A one-destination command that reports leaves a reading congruent to its exact result, and nothing else changed. -/
theorem complete_bits_modEq (s : State) (rd : Reg) (S : Bool) (m : Int) :
    ∃ t, complete s rd (bits s.W m) (overflow S s.W m) = .next t ∧ t.val S rd ≡ m [ZMOD 2 ^ s.W] ∧ OnlyWrites [rd] s t := by
  obtain ⟨t, ht, _, hval, _, hframe⟩ := complete_onlyWrites s rd (bits s.W m) (overflow S s.W m)
  refine ⟨t, ht, ?_, hframe⟩
  rw [hval, Int.ModEq, val_emod, uval_bits]

theorem W_of_onlyWrites {rds : List Reg} {s t : State} (h : OnlyWrites rds s t) : t.W = s.W := congrArg Width.bits h.1

/-- Settles O45: modulo `2^W` both registers hold `-(a * b)`. -/
theorem multiplicationSignLaw : Obligations.MultiplicationSignLaw := by
  intro S ra rb rn rp rq rr s hna hnb hpa hpb hqp
  obtain ⟨t1, ht1, hneg, hframe1⟩ := complete_bits_modEq s rn S (0 - s.val S rb)
  obtain ⟨t2, ht2, hmul, hframe2⟩ := complete_bits_modEq t1 rp S (t1.val S ra * t1.val S rn)
  obtain ⟨t3, ht3, hmul', hframe3⟩ := complete_bits_modEq t2 rq S (t2.val S ra * t2.val S rb)
  obtain ⟨t4, ht4, hneg', hframe4⟩ := complete_bits_modEq t3 rr S (0 - t3.val S rq)
  refine ⟨t1, t2, t3, t4, ht1, ht2, ht3, ht4, ?_⟩
  have hW1 := W_of_onlyWrites hframe1
  have hW2 := (W_of_onlyWrites hframe2).trans hW1
  have hW3 := (W_of_onlyWrites hframe3).trans hW2
  have hW4 := (W_of_onlyWrites hframe4).trans hW3
  have ha1 : t1.val S ra = s.val S ra := val_of_onlyWrites hframe1 S (by simpa using hna.symm)
  have hb1 : t1.val S rb = s.val S rb := val_of_onlyWrites hframe1 S (by simpa using hnb.symm)
  have ha2 : t2.val S ra = s.val S ra := (val_of_onlyWrites hframe2 S (by simpa using hpa.symm)).trans ha1
  have hb2 : t2.val S rb = s.val S rb := (val_of_onlyWrites hframe2 S (by simpa using hpb.symm)).trans hb1
  have hp3 : t3.val S rp = t2.val S rp := val_of_onlyWrites hframe3 S (by simpa using hqp.symm)
  rw [ha1, hW1] at hmul
  rw [ha2, hb2, hW2] at hmul'
  rw [hW3] at hneg'
  have hmod : t4.val S rr ≡ t3.val S rp [ZMOD 2 ^ s.W] := by
    calc t4.val S rr ≡ 0 - t3.val S rq [ZMOD 2 ^ s.W] := hneg'
      _ ≡ 0 - s.val S ra * s.val S rb [ZMOD 2 ^ s.W] := (Int.ModEq.refl 0).sub hmul'
      _ = s.val S ra * (0 - s.val S rb) := by ring
      _ ≡ s.val S ra * t1.val S rn [ZMOD 2 ^ s.W] := hneg.symm.mul_left _
      _ ≡ t2.val S rp [ZMOD 2 ^ s.W] := hmul.symm
      _ = t3.val S rp := hp3.symm
  have hbits : (t4.uval rr : Int) = t3.uval rp := by
    calc (t4.uval rr : Int) = t4.val S rr % 2 ^ t4.W := (val_emod S (t4.reg rr)).symm
      _ = t3.val S rp % 2 ^ t3.W := by rw [hW4, hW3]; exact hmod
      _ = t3.uval rp := val_emod S (t3.reg rp)
  exact_mod_cast hbits

end Machine
end Sys2Proof
end

section
/-! PROOFS. The schoolbook and the Karatsuba multiplier, the signed correction and the overflow check on the discarded half
(43_multiply.md R142 to R146) against the exact product. -/

namespace Sys2Proof.Machine

open Sys2Proof.Spec

/-! ## The schoolbook path (R142) -/

/-- One turn of the inner loop: the word stored and the carry are the two digits of `a * b + p + c`, which is below `2^128`. -/
theorem mulw_add_digits (a b p c : Word) :
    (BitVec.ofNat 64 (mulw a b + p.toNat + c.toNat)).toNat +
      2 ^ 64 * (BitVec.ofNat 64 ((mulw a b + p.toNat + c.toNat) / 2 ^ 64)).toNat = mulw a b + p.toNat + c.toNat := by
  have hprod : mulw a b ≤ (2 ^ 64 - 1) * (2 ^ 64 - 1) :=
    Nat.mul_le_mul (Nat.le_sub_one_of_lt a.isLt) (Nat.le_sub_one_of_lt b.isLt)
  have hp := p.isLt
  have hc := c.isLt
  have hcarry : (mulw a b + p.toNat + c.toNat) / 2 ^ 64 < 2 ^ 64 := Nat.div_lt_of_lt_mul (by omega)
  rw [BitVec.toNat_ofNat, BitVec.toNat_ofNat, Nat.mod_eq_of_lt hcarry, Nat.mod_add_div]

theorem schoolRow_cons (a b p c : Word) (bs ps : List Word) : schoolRow a (b :: bs) (p :: ps) c =
    (BitVec.ofNat 64 (mulw a b + p.toNat + c.toNat) ::
        (schoolRow a bs ps (BitVec.ofNat 64 ((mulw a b + p.toNat + c.toNat) / 2 ^ 64))).1,
      (schoolRow a bs ps (BitVec.ofNat 64 ((mulw a b + p.toNat + c.toNat) / 2 ^ 64))).2) := rfl

/-- A row adds one word times the second operand to its window; what does not fit the window is the carry out. -/
theorem schoolRow_value (a : Word) {bs ps : List Word} (h : bs.length = ps.length) (c : Word) :
    (schoolRow a bs ps c).1.length = bs.length ∧
    ofWords (schoolRow a bs ps c).1 + 2 ^ (64 * bs.length) * (schoolRow a bs ps c).2.toNat =
      a.toNat * ofWords bs + ofWords ps + c.toNat := by
  induction bs generalizing ps c with
  | nil =>
    obtain rfl := List.length_eq_zero_iff.mp h.symm
    simp [schoolRow, ofWords]
  | cons b bs ih =>
    obtain ⟨p, ps, rfl⟩ := List.exists_cons_of_length_eq_add_one h.symm
    obtain ⟨hlen, hrest⟩ := ih (Nat.succ.inj h) (BitVec.ofNat 64 ((mulw a b + p.toNat + c.toNat) / 2 ^ 64))
    have hword := mulw_add_digits a b p c
    rw [schoolRow_cons]
    refine ⟨congrArg Nat.succ hlen, ?_⟩
    simp only [ofWords, List.length_cons, Nat.mul_succ, pow_add]
    rw [mulw] at hword hrest ⊢
    linear_combination hword + 2 ^ 64 * hrest

/-- One row of the outer loop on a buffer whose words above the window are zero: word 0 is done, the window moves up by one
and the words above it are still zero. -/
theorem schoolRows_cons (a : Word) (as bs : List Word) {window : List Word} (h : bs.length = window.length) :
    ∃ p window', window'.length = bs.length ∧
      p.toNat + 2 ^ 64 * ofWords window' = a.toNat * ofWords bs + ofWords window ∧
      schoolRows (a :: as) bs (window ++ List.replicate (as.length + 1) 0#64) =
        p :: schoolRows as bs (window' ++ List.replicate as.length 0#64) := by
  obtain ⟨hlen, hvalue⟩ := schoolRow_value a h 0#64
  have htake : (window ++ List.replicate (as.length + 1) 0#64).take bs.length = window := by
    rw [h, List.take_left]
  have hdrop : (window ++ List.replicate (as.length + 1) 0#64).drop (bs.length + 1) = List.replicate as.length 0#64 := by
    rw [h, ← List.drop_drop, List.drop_left, List.drop_replicate, Nat.add_sub_cancel]
  obtain ⟨p, window', hrow⟩ : ∃ p window', (schoolRow a bs window 0#64).1 ++ [(schoolRow a bs window 0#64).2] = p :: window' :=
    List.exists_cons_of_ne_nil (by simp)
  have hwords := congrArg ofWords hrow
  have hlen' := congrArg List.length hrow
  rw [ofWords_append, hlen] at hwords
  simp only [ofWords, mul_zero, add_zero] at hwords
  refine ⟨p, window', by simpa [hlen] using hlen'.symm, ?_, ?_⟩
  · rw [← hwords, hvalue]
    rfl
  · simp only [schoolRows, htake, hdrop]
    rw [List.append_cons, hrow]
    rfl

/-- The outer loop adds the product to the window. -/
theorem schoolRows_value (as bs : List Word) {window : List Word} (h : bs.length = window.length) :
    ofWords (schoolRows as bs (window ++ List.replicate as.length 0#64)) = ofWords as * ofWords bs + ofWords window := by
  induction as generalizing window with
  | nil => simp [schoolRows, ofWords]
  | cons a as ih =>
    obtain ⟨p, window', hlen, hvalue, hrows⟩ := schoolRows_cons a as bs h
    rw [List.length_cons, hrows, ofWords, ih hlen.symm, ofWords]
    linear_combination hvalue

/-- The schoolbook product is exact. -/
theorem school_eq_mul {k a b : Nat} (ha : a < 2 ^ (64 * k)) (hb : b < 2 ^ (64 * k)) : school k a b = a * b := by
  have hrows := schoolRows_value (toWords k a) (toWords k b) (window := List.replicate k 0#64) (by simp)
  rw [toWords_length, List.replicate_append_replicate, ← two_mul] at hrows
  rw [school, hrows, ofWords_toWords_of_lt ha, ofWords_toWords_of_lt hb, ofWords_replicate_zero, add_zero]

/-- Settles O51, by induction on the rows and, inside a row, on the words. -/
theorem schoolbookProductIsExact : Obligations.SchoolbookProductIsExact := fun _ _ _ => school_eq_mul

/-! ## The Karatsuba path (R143) -/

/-- `ADD_h` on the halves of an operand: the `h`-word sum is below the radix, and with the carry it is the exact sum. -/
theorem addRipple_halves {h x y : Nat} (hx : x < 2 ^ (64 * h)) (hy : y < 2 ^ (64 * h)) :
    ofWords (addRipple (toWords h x) (toWords h y) false).1 < 2 ^ (64 * h) ∧
    ofWords (addRipple (toWords h x) (toWords h y) false).1 +
      2 ^ (64 * h) * (addRipple (toWords h x) (toWords h y) false).2.toNat = x + y := by
  obtain ⟨hlen, hsum⟩ := addRipple_value (as := toWords h x) (bs := toWords h y) (by simp) false
  have hlt := ofWords_lt (addRipple (toWords h x) (toWords h y) false).1
  rw [toWords_length] at hlen hsum
  rw [hlen] at hlt
  rw [ofWords_toWords_of_lt hx, ofWords_toWords_of_lt hy] at hsum
  exact ⟨hlt, hsum⟩

/-- The two halves of an operand of `2 * h` words have `h` words each. -/
theorem halves_lt {h a : Nat} (ha : a < 2 ^ (64 * (2 * h))) : a / 2 ^ (64 * h) < 2 ^ (64 * h) ∧ a % 2 ^ (64 * h) < 2 ^ (64 * h) :=
  ⟨Nat.div_lt_of_lt_mul (by rwa [← pow_add, ← two_mul, Nat.mul_left_comm]), Nat.mod_lt _ (by positivity)⟩

/-- The schoolbook product of two sums, completed by their carries, is the product of the exact sums. -/
theorem mul_of_sums_with_carries {β sa sb ca cb x y : Nat} (hx : sa + β * ca = x) (hy : sb + β * cb = y) :
    sa * sb + β * (ca * sb + cb * sa) + ca * cb * β ^ 2 = x * y := by
  rw [← hx, ← hy]
  ring

/-- The Karatsuba product is exact: the middle term, carries included, is `(a1 + a0) * (b1 + b0)`. -/
theorem karatsuba_eq_mul {h a b : Nat} (ha : a < 2 ^ (64 * (2 * h))) (hb : b < 2 ^ (64 * (2 * h))) :
    karatsuba h a b = ((a * b : Nat) : Int) := by
  obtain ⟨ha1, ha0⟩ := halves_lt ha
  obtain ⟨hb1, hb0⟩ := halves_lt hb
  obtain ⟨hsa, hsumA⟩ := addRipple_halves ha1 ha0
  obtain ⟨hsb, hsumB⟩ := addRipple_halves hb1 hb0
  have hab : a * b = (2 ^ (64 * h) * (a / 2 ^ (64 * h)) + a % 2 ^ (64 * h)) *
      (2 ^ (64 * h) * (b / 2 ^ (64 * h)) + b % 2 ^ (64 * h)) := by rw [Nat.div_add_mod, Nat.div_add_mod]
  simp only [karatsuba, school_eq_mul ha1 hb1, school_eq_mul ha0 hb0, school_eq_mul hsa hsb]
  rw [hab, mul_of_sums_with_carries hsumA hsumB]
  push_cast
  ring

theorem even_words_of_karatsubaMinN_le {n : Width} (hn : karatsubaMinN ≤ n.words) : 2 * (n.words / 2) = n.words := by
  revert hn
  cases n <;> decide

/-- The product of the selected path is exact, whichever path it is. -/
theorem uval_uprod (n : Width) (a b : BitVec n.bits) : uval (uprod n a b) = uval a * uval b := by
  have hlt : uval a * uval b < 2 ^ (2 * n.bits) := by
    rw [two_mul, pow_add]
    exact Nat.mul_lt_mul'' (uval_lt a) (uval_lt b)
  rw [uprod]
  split
  · next hn =>
    have heven := even_words_of_karatsubaMinN_le hn
    rw [karatsuba_eq_mul (by rw [heven]; exact uval_lt a) (by rw [heven]; exact uval_lt b), uval_bits_of_lt hlt]
  · rw [school_eq_mul (uval_lt a) (uval_lt b), uval_bits_of_lt hlt]

/-- Settles O52: both paths give the exact product. -/
theorem multiplierPathsAgree : Obligations.MultiplierPathsAgree :=
  ⟨fun _ _ _ => karatsuba_eq_mul, uval_uprod⟩

/-! ## The signed correction (R145) -/

/-- The reading is the unsigned one less the weight `2^W` of the sign bit, where `S` reads it as one. -/
theorem val_eq_uval_sub {w : Nat} (S : Bool) (v : BitVec w) : val S v = uval v - (S && topBit v).toNat * 2 ^ w := by
  cases S with
  | true => simp [val, sval, topBit]
  | false => simp [val]

theorem correctedLow_eq (S : Bool) (n : Width) (a b : BitVec n.bits) :
    correctedLow n a b = productLow n.bits (val S a * val S b) := by
  apply uval_inj
  have hmod : (uval a * uval b : Int) % 2 ^ n.bits = val S a * val S b % 2 ^ n.bits := by
    rw [Int.mul_emod (val S a), val_emod, val_emod]
  zify
  rw [uval_productLow, ← hmod, correctedLow, uval_uprod, uval_bits]
  push_cast
  exact Int.emod_emod_of_dvd _ (dvd_refl _)

theorem correctedHigh_eq (S : Bool) (n : Width) (a b : BitVec n.bits) :
    correctedHigh S n a b = productHigh n.bits (val S a * val S b) := by
  have hcorrected : correctedHigh S n a b = bits n.bits ((uval a * uval b : Int) / 2 ^ n.bits -
      (S && topBit a).toNat * uval b - (S && topBit b).toNat * uval a) := by
    rw [correctedHigh, uval_uprod]
    cases S <;> simp
  have hproduct : val S a * val S b = uval a * uval b + (-((S && topBit a).toNat * uval b) - (S && topBit b).toNat * uval a +
      (S && topBit a).toNat * (S && topBit b).toNat * 2 ^ n.bits) * 2 ^ n.bits := by
    rw [val_eq_uval_sub, val_eq_uval_sub]
    ring
  rw [productHigh_eq, hproduct, Int.add_mul_ediv_right _ _ (by positivity), hcorrected, bits_eq_iff,
    ← Int.add_mul_emod_self_right _ ((S && topBit a).toNat * (S && topBit b).toNat)]
  congr 1
  ring

/-! ## The overflow check on the two halves (R146) -/

/-- A reading determines the pattern. -/
theorem val_inj {w : Nat} {S : Bool} {u v : BitVec w} : val S u = val S v ↔ u = v :=
  ⟨fun h => by rw [← bits_val S u, h, bits_val], congrArg (val S)⟩

/-- The sign repeated, which is zero for `S = 0`, reads as -1 or 0. -/
theorem val_signFill {w : Nat} (hw : 0 < w) (S b : Bool) :
    val S (if S && b then BitVec.allOnes w else 0#w) = -((S && b).toNat : Int) := by
  cases S with
  | true => cases b <;> simp [val_true, BitVec.toInt_allOnes, hw]
  | false => simp [val_false]

/-- The check compares the high half with the sign of the low half repeated. -/
theorem mulOvRule_iff {w : Nat} (hw : 0 < w) (S : Bool) (hi lo : BitVec w) :
    mulOvRule S hi lo = true ↔ val S hi ≠ -((S && topBit lo).toNat : Int) := by
  rw [← val_signFill hw, Ne, val_inj]
  cases S <;> simp [mulOvRule]

/-- A number fits exactly when it is the reading of its low half. -/
theorem fits_iff_eq_val {w : Nat} (hw : 0 < w) {S : Bool} {p : Int} {lo : BitVec w} (hlo : p % 2 ^ w = uval lo) :
    Fits S w p ↔ p = val S lo := by
  constructor
  · intro h
    have hbits : bits w p = lo := by rw [← bits_val S lo, bits_eq_iff, hlo, val_emod]
    rw [← hbits, val_bits_of_fits hw ((fits_iff S w p).mpr h)]
  · rintro rfl
    exact (fits_iff S w _).mp (fits_val hw S lo)

/-- The check on the two halves of a number is true exactly when the number does not fit. -/
theorem mulOvRule_iff_not_fits {w : Nat} (hw : 0 < w) {S : Bool} {hi lo : BitVec w} {p : Int}
    (hp : val S hi * 2 ^ w + uval lo = p) : mulOvRule S hi lo = true ↔ ¬ Fits S w p := by
  have hlo : p % 2 ^ w = uval lo := by
    rw [← hp, add_comm, Int.add_mul_emod_self_right]
    exact val_emod false lo
  have hpos : (2 : Int) ^ w ≠ 0 := by positivity
  rw [mulOvRule_iff hw, fits_iff_eq_val hw hlo, val_eq_uval_sub S lo, ← hp, not_iff_not]
  constructor
  · intro h
    rw [h]
    ring
  · intro h
    exact mul_right_cancel₀ hpos (by linear_combination h)

/-- Settles O53: the corrected halves are those of the exact product. -/
theorem signedCorrectionAgrees : Obligations.SignedCorrectionAgrees := by
  intro S n a b
  have hw : 0 < n.bits := Nat.mul_pos (by decide) (words_pos n)
  have hproduct : val S (correctedHigh S n a b) * 2 ^ n.bits + uval (correctedLow n a b) = val S a * val S b := by
    rw [correctedHigh_eq, correctedLow_eq S]
    exact product_of_halves hw S a b
  exact ⟨hproduct, mulOvRule_iff_not_fits hw hproduct⟩

end Sys2Proof.Machine
end

section
/-! PROOFS. DIV, REM, DIVREM and DIVFW (44_divide.md R170 to R173), row by row of the table of R181, and the division identity
(R183). -/

namespace Sys2Proof

open Sys2Proof.Spec

/-- A word that the mask and match of DIVFW's row select decodes to it, unless it names one destination twice. -/
theorem decode_of_and_mask_divfw {c : CmdWord} (hc : c &&& 0xFF8000BF#32 = 0x0000001B#32) : decode c =
    if field c 8 = field c 11 then .error .destConflict
    else .ok (.divfw (c.getLsbD 6) (regField 8 c) (regField 11 c) (regField 14 c) (regField 17 c) (regField 20 c)) := by
  have hdecode := decode_of_and_mask (fmt := .r3d) (op := 0x1B)
    (command := fun f => .divfw f.S f.rd f.rd2 f.rs1 f.rs2 f.rs3) (by decide) rfl hc
  simp only [Format.twoDest, Bool.true_and, decide_eq_true_eq, regField_eq_iff] at hdecode
  exact hdecode

namespace Machine

/-! ## Quotients and remainders that fit -/

/-- The condition of the row "signed overflow" of R181, on the operands. -/
def LeastOverMinusOne (S : Bool) {w : Nat} (a b : BitVec w) : Prop :=
  S = true ∧ sval a = -(2 ^ (w - 1) : Int) ∧ sval b = -1

theorem signedOverflow_iff (s : State) (S : Bool) (rs1 rs2 : Reg) :
    SignedOverflow s S rs1 rs2 ↔ LeastOverMinusOne S (s.reg rs1) (s.reg rs2) := Iff.rfl

/-- The two ranges of a reading say how large it is. -/
theorem natAbs_val_le {w : Nat} (hw : 0 < w) (S : Bool) (v : BitVec w) :
    ((val S v).natAbs : Int) ≤ if S = true then 2 ^ (w - 1) else 2 ^ w - 1 := by
  have hrange := (fits_iff S w _).mp (fits_val hw S v)
  cases S with
  | true =>
    simp only [if_true] at hrange ⊢
    omega
  | false =>
    simp only [Bool.false_eq_true, if_false] at hrange ⊢
    omega

/-- A remainder by a reading that is not zero fits, whatever the dividend; a dividend read unsigned is not negative. -/
theorem fits_tmod_val {w : Nat} (hw : 0 < w) {S : Bool} {A : Int} {b : BitVec w} (hA : S = false → 0 ≤ A)
    (hb : val S b ≠ 0) : fits S w (Int.tmod A (val S b)) = true := by
  have hlt : (Int.tmod A (val S b)).natAbs < (val S b).natAbs := by
    rw [Int.natAbs_tmod]
    exact Nat.mod_lt _ (Int.natAbs_pos.mpr hb)
  have hle := natAbs_val_le hw S b
  rw [fits_iff]
  cases S with
  | true =>
    simp only [if_true] at hle ⊢
    omega
  | false =>
    have hnonneg := Int.tmod_nonneg (val false b) (hA rfl)
    simp only [Bool.false_eq_true, if_false] at hle ⊢
    omega

theorem val_false_nonneg {w : Nat} {S : Bool} (v : BitVec w) (hS : S = false) : 0 ≤ val S v := by
  subst hS
  exact Int.natCast_nonneg _

/-- A quotient is in the dividend's range, but for the least dividend over -1: a divisor of magnitude 2 or more makes the
magnitude smaller. -/
theorem fits_tdiv_val {w : Nat} (hw : 0 < w) {S : Bool} {a b : BitVec w} (hb : val S b ≠ 0)
    (hov : ¬ LeastOverMinusOne S a b) :
    fits S w (Int.tdiv (val S a) (val S b)) = true := by
  have hle := Int.natAbs_tdiv_le_natAbs (val S a) (val S b)
  have ha := (fits_iff S w _).mp (fits_val hw S a)
  rw [fits_iff]
  cases S with
  | true =>
    simp only [if_true] at ha ⊢
    have hov : ¬ (val true a = -(2 ^ (w - 1) : Int) ∧ val true b = -1) := fun h => hov ⟨rfl, h⟩
    by_cases hone : val true b = 1
    · rwa [hone, Int.tdiv_one]
    by_cases hneg : val true b = -1
    · rw [hneg, Int.tdiv_neg, Int.tdiv_one]
      have hmin : val true a ≠ -(2 ^ (w - 1) : Int) := fun h => hov ⟨h, hneg⟩
      omega
    · have hhalf : (Int.tdiv (val true a) (val true b)).natAbs ≤ (val true a).natAbs / 2 := by
        rw [Int.natAbs_tdiv]
        exact Nat.div_le_div_left (by omega) (by decide)
      have hpos : (0 : Int) < 2 ^ (w - 1) := by positivity
      omega
  | false =>
    have hnonneg := Int.tdiv_nonneg (val_false_nonneg a rfl) (val_false_nonneg b rfl)
    simp only [Bool.false_eq_true, if_false] at ha ⊢
    omega

/-! ## The rows of R181 -/

section
variable {S : Bool} {w : Nat} {a b : BitVec w}

/-- The row "zero divisor": both results are the dividend. -/
theorem division_of_zeroDivisor (h : uval b = 0) :
    divQuotient S a b = a ∧ divRemainder S a b = a ∧ divOverflow (divCase S a b) = true := by
  have hcase : divCase S a b = .zeroDivisor := if_pos ((val_eq_zero_iff S b).mpr h)
  simp only [divQuotient, divRemainder, hcase, divOverflow, and_self]

theorem divCase_eq_signedOverflow (hw : 0 < w) (h : LeastOverMinusOne S a b) :
    divCase S a b = .signedOverflow := by
  obtain ⟨rfl, ha, hb⟩ := h
  have hD : val true b = -1 := hb
  rw [divCase, hD, if_neg (by decide), if_pos ⟨rfl, (eq_minS_iff hw a).mpr ha, rfl⟩]

/-- The row "signed overflow": the quotient is the dividend, which is `min_S`. -/
theorem division_of_signedOverflow (hw : 0 < w) (h : LeastOverMinusOne S a b) :
    divQuotient S a b = a ∧ divRemainder S a b = 0#w ∧ divOverflow (divCase S a b) = true := by
  have hcase := divCase_eq_signedOverflow hw h
  obtain ⟨rfl, ha, -⟩ := h
  simp only [divQuotient, divRemainder, hcase, divOverflow, and_self, and_true]
  exact ((eq_minS_iff hw a).mpr ha).symm

theorem divCase_eq_regular (hw : 0 < w) (h0 : uval b ≠ 0)
    (hov : ¬ LeastOverMinusOne S a b) : divCase S a b = .regular := by
  rw [divCase, if_neg (mt (val_eq_zero_iff S b).mp h0), if_neg]
  rintro ⟨rfl, ha, hb⟩
  exact hov ⟨rfl, (eq_minS_iff hw a).mp ha, hb⟩

/-- The row "otherwise": quotient and remainder fit, so they are the exact ones. -/
theorem division_of_regular (hw : 0 < w) (h0 : uval b ≠ 0)
    (hov : ¬ LeastOverMinusOne S a b) :
    val S (divQuotient S a b) = Int.tdiv (val S a) (val S b) ∧
    val S (divRemainder S a b) = Int.tmod (val S a) (val S b) ∧ divOverflow (divCase S a b) = false := by
  have hD := mt (val_eq_zero_iff S b).mp h0
  simp only [divQuotient, divRemainder, divCase_eq_regular hw h0 hov, divOverflow, and_true, tdiv_eq, trem_eq]
  exact ⟨val_bits_of_fits hw (fits_tdiv_val hw hD hov), val_bits_of_fits hw (fits_tmod_val hw (val_false_nonneg a) hD)⟩

end

/-- The rows of R181 for the operands that two registers hold. -/
theorem division_rows (s : State) (S : Bool) (rs1 rs2 : Reg) :
    (s.uval rs2 = 0 → Machine.uval (divQuotient S (s.reg rs1) (s.reg rs2)) = s.uval rs1 ∧
      Machine.uval (divRemainder S (s.reg rs1) (s.reg rs2)) = s.uval rs1 ∧
      divOverflow (divCase S (s.reg rs1) (s.reg rs2)) = true) ∧
    (SignedOverflow s S rs1 rs2 → Machine.uval (divQuotient S (s.reg rs1) (s.reg rs2)) = s.uval rs1 ∧
      Machine.uval (divRemainder S (s.reg rs1) (s.reg rs2)) = 0 ∧
      divOverflow (divCase S (s.reg rs1) (s.reg rs2)) = true) ∧
    (s.uval rs2 ≠ 0 → ¬ SignedOverflow s S rs1 rs2 →
      Machine.val S (divQuotient S (s.reg rs1) (s.reg rs2)) = Int.tdiv (s.val S rs1) (s.val S rs2) ∧
      Machine.val S (divRemainder S (s.reg rs1) (s.reg rs2)) = Int.tmod (s.val S rs1) (s.val S rs2) ∧
      divOverflow (divCase S (s.reg rs1) (s.reg rs2)) = false) := by
  rw [signedOverflow_iff]
  refine ⟨fun h => ?_, fun h => ?_, fun h0 h => division_of_regular (W_pos s) h0 h⟩
  · obtain ⟨hq, hr, hflag⟩ := division_of_zeroDivisor (S := S) (a := s.reg rs1) h
    exact ⟨congrArg Machine.uval hq, congrArg Machine.uval hr, hflag⟩
  · obtain ⟨hq, hr, hflag⟩ := division_of_signedOverflow (W_pos s) h
    exact ⟨congrArg Machine.uval hq, (congrArg Machine.uval hr).trans (Nat.zero_mod _), hflag⟩

/-! ## DIV, REM and DIVREM -/

/-- Settles O32: DIV completes with the quotient of the row of R181. -/
theorem divRoundsTowardZero : Obligations.DivRoundsTowardZero := by
  refine ⟨selectsR2_of_row (by decide) rfl, fun S rd rs1 rs2 s => ?_⟩
  obtain ⟨t, ht, huval, hval, hov, hframe⟩ := complete_onlyWrites s rd (divQuotient S (s.reg rs1) (s.reg rs2))
    (divOverflow (divCase S (s.reg rs1) (s.reg rs2)))
  obtain ⟨hzero, hoverflow, hregular⟩ := division_rows s S rs1 rs2
  refine ⟨t, ht, hframe, ?_⟩
  rw [huval, hval, hov]
  exact ⟨fun h => (hzero h).imp_right And.right, fun h => (hoverflow h).imp_right And.right,
    fun h0 h => (hregular h0 h).imp_right And.right⟩

/-- Settles O33: REM completes with the remainder of the row of R181. -/
theorem remHasTheDividendsSign : Obligations.RemHasTheDividendsSign := by
  refine ⟨selectsR2_of_row (by decide) rfl, fun S rd rs1 rs2 s => ?_⟩
  obtain ⟨t, ht, huval, hval, hov, hframe⟩ := complete_onlyWrites s rd (divRemainder S (s.reg rs1) (s.reg rs2))
    (divOverflow (divCase S (s.reg rs1) (s.reg rs2)))
  obtain ⟨hzero, hoverflow, hregular⟩ := division_rows s S rs1 rs2
  refine ⟨t, ht, hframe, ?_⟩
  rw [huval, hval, hov]
  exact ⟨fun h => (hzero h).2, fun h => (hoverflow h).2, fun h0 h => (hregular h0 h).2⟩

/-- Settles O34: DIVREM completes with both results of the row of R181. -/
theorem divremGivesBothResults : Obligations.DivremGivesBothResults := by
  refine ⟨selectsR2D_of_row (by decide) rfl, fun S rd rd2 rs1 rs2 s hne => ?_⟩
  obtain ⟨t, ht, hn, huval, huval2, hval, hval2, hov, herr, hcmd, -, -, hframe⟩ := complete2_spec s rd rd2
    (divQuotient S (s.reg rs1) (s.reg rs2)) (divRemainder S (s.reg rs1) (s.reg rs2))
    (divOverflow (divCase S (s.reg rs1) (s.reg rs2))) hne
  refine ⟨t, (guardDest_of_ne _ s _ hne).trans ht, ⟨hn, herr, hcmd, hframe⟩, ?_⟩
  rw [huval, huval2, hval, hval2, hov]
  exact division_rows s S rs1 rs2

/-! ## DIVFW -/

section
variable {S : Bool} {w : Nat} {v : BitVec w} (h l : BitVec w)

theorem fullDividend_eq : fullDividend S h l = val S h * 2 ^ w + uval l := by
  simp [fullDividend]

theorem divfw_of_zeroDivisor (hv : uval v = 0) :
    divfwQuotient S v h l = l ∧ divfwRemainder S v h l = l ∧ divfwOverflow S v = true := by
  have hD := (val_eq_zero_iff S v).mpr hv
  exact ⟨if_pos hD, if_pos hD, decide_eq_true hD⟩

/-- The quotient is cut to `W` bits; the remainder fits, because its magnitude is below the divisor's. -/
theorem divfw_of_ne_zero (hw : 0 < w) (hv : uval v ≠ 0) :
    (uval (divfwQuotient S v h l) : Int) = Int.tdiv (val S h * 2 ^ w + uval l) (val S v) % 2 ^ w ∧
    val S (divfwRemainder S v h l) = Int.tmod (val S h * 2 ^ w + uval l) (val S v) ∧ divfwOverflow S v = false := by
  have hD := mt (val_eq_zero_iff S v).mp hv
  have hU : S = false → 0 ≤ fullDividend S h l := fun hS => by
    have := val_false_nonneg h hS
    rw [fullDividend]
    positivity
  rw [← fullDividend_eq, divfwQuotient, divfwRemainder, if_neg hD, if_neg hD, tdiv_eq, trem_eq]
  exact ⟨uval_bits _, val_bits_of_fits hw (fits_tmod_val hw hU hD), decide_eq_false hD⟩

end

/-- Settles O35: DIVFW completes with the quotient's low half and the exact remainder. -/
theorem divfwDividesTheFullWidthDividend : Obligations.DivfwDividesTheFullWidthDividend := by
  refine ⟨fun c hc => ?_, fun S rd rd2 rs1 rs2 rs3 s hne => ?_⟩
  · have hdecode := decode_of_and_mask_divfw hc
    exact ⟨fun hsame => hdecode.trans (if_pos hsame), fun hne => ⟨_, _, _, _, _, hdecode.trans (if_neg hne),
      regField_val 8 c, regField_val 11 c, regField_val 14 c, regField_val 17 c, regField_val 20 c⟩⟩
  · obtain ⟨t, ht, hn, huval, huval2, _, hval2, hov, herr, hcmd, -, -, hframe⟩ := complete2_spec s rd rd2
      (divfwQuotient S (s.reg rs1) (s.reg rs2) (s.reg rs3)) (divfwRemainder S (s.reg rs1) (s.reg rs2) (s.reg rs3))
      (divfwOverflow S (s.reg rs1)) hne
    refine ⟨t, (guardDest_of_ne _ s _ hne).trans ht, ⟨hn, herr, hcmd, hframe⟩, fun h => ?_, fun h => ?_⟩
    · obtain ⟨hq, hr, hflag⟩ := divfw_of_zeroDivisor (S := S) (s.reg rs2) (s.reg rs3) h
      exact ⟨huval.trans (congrArg Machine.uval hq), huval2.trans (congrArg Machine.uval hr), hov.trans hflag⟩
    · obtain ⟨hq, hr, hflag⟩ := divfw_of_ne_zero (S := S) (s.reg rs2) (s.reg rs3) (W_pos s) h
      exact ⟨(congrArg Nat.cast huval).trans hq, (hval2 S).trans hr, hov.trans hflag⟩

/-! ## The division identity -/

/-- The remainder toward zero is zero or has the dividend's sign. -/
theorem tmod_eq_zero_or_sign_eq (a b : Int) : Int.tmod a b = 0 ∨ (Int.tmod a b).sign = a.sign := by
  rw [Int.sign_tmod]
  split
  · next hdvd => exact .inl (Int.tmod_eq_zero_of_dvd hdvd)
  · exact .inr rfl

/-- Settles O46: without overflow both results are the exact ones, and those satisfy the identity of the integers. -/
theorem divisionIdentity : Obligations.DivisionIdentity := by
  intro S rd rd2 rs1 rs2 rs3 s t hne
  constructor
  · intro ht hov
    obtain ⟨t', ht', -, hzero, hoverflow, hregular⟩ := divremGivesBothResults.2 S rd rd2 rs1 rs2 s hne
    obtain rfl : t' = t := by simpa [ht] using ht'.symm
    have h0 : s.uval rs2 ≠ 0 := fun h => by simpa [hov] using (hzero h).2.2
    obtain ⟨hq, hr, -⟩ := hregular h0 fun h => by simpa [hov] using (hoverflow h).2.2
    rw [hq, hr, Int.natAbs_tmod]
    exact ⟨(Int.mul_tdiv_add_tmod _ _).symm, Nat.mod_lt _ (Int.natAbs_pos.mpr (mt (val_eq_zero_iff S _).mp h0)),
      tmod_eq_zero_or_sign_eq _ _⟩
  · intro ht hov hfits
    obtain ⟨t', ht', hframe, hzero, hregular⟩ := divfwDividesTheFullWidthDividend.2 S rd rd2 rs1 rs2 rs3 s hne
    obtain rfl : t' = t := by simpa [ht] using ht'.symm
    obtain ⟨hq, hr, -⟩ := hregular fun h => by simpa [hov] using (hzero h).2.2
    have hW := W_of_onlyWrites hframe
    have hexact : Int.tdiv (s.val S rs2 * 2 ^ s.W + s.uval rs3) (s.val S rs1) = t'.val S rd :=
      (fits_iff_eq_val (W_pos t') ((congrArg (_ % 2 ^ ·) hW).trans hq.symm)).mp (by rwa [hW])
    rw [hr, ← hexact]
    exact (Int.mul_tdiv_add_tmod _ _).symm

end Machine
end Sys2Proof
end

section
/-! PROOFS. Short division (44_divide.md R175) against the exact quotient and remainder. -/

namespace Sys2Proof.Machine

/-! ## Word lists, from the top -/

theorem ofWords_concat (ws : List Word) (w : Word) : ofWords (ws ++ [w]) = ofWords ws + 2 ^ (64 * ws.length) * w.toNat := by
  rw [ofWords_append, ofWords, ofWords, mul_zero, add_zero]

/-! ## Short division (R175) -/

/-- The quotient word loses nothing, because the running remainder is below the divisor. -/
theorem divw_quotient_toNat {h d : Nat} (l : Word) (hd : h < d) :
    (divw h l d).1.toNat = (h * 2 ^ 64 + l.toNat) / d := by
  have hlt : (h * 2 ^ 64 + l.toNat) / d < 2 ^ 64 := by
    rw [Nat.div_lt_iff_lt_mul (by omega)]
    have := l.isLt
    nlinarith
  rw [divw, BitVec.toNat_ofNat, Nat.mod_eq_of_lt hlt]

theorem divw_remainder (h : Nat) (l : Word) (d : Nat) : (divw h l d).2 = (h * 2 ^ 64 + l.toNat) % d := rfl

theorem shortDivLoop_cons (d : Nat) (u : Word) (us : List Word) (r : Nat) : shortDivLoop d (u :: us) r =
    ((divw r u d).1 :: (shortDivLoop d us (divw r u d).2).1, (shortDivLoop d us (divw r u d).2).2) := rfl

/-- From a running remainder below the divisor the loop divides the number that the remainder and the words still to come
make. -/
theorem shortDivLoop_value {d : Nat} (us : List Word) {r : Nat} (hr : r < d) :
    (shortDivLoop d us r).1.length = us.length ∧
    ofWords (shortDivLoop d us r).1.reverse = (r * 2 ^ (64 * us.length) + ofWords us.reverse) / d ∧
    (shortDivLoop d us r).2 = (r * 2 ^ (64 * us.length) + ofWords us.reverse) % d := by
  induction us generalizing r with
  | nil => simp [shortDivLoop, ofWords, Nat.div_eq_of_lt hr, Nat.mod_eq_of_lt hr]
  | cons u us ih =>
    have hd : 0 < d := by omega
    obtain ⟨hlen, hq, hrem⟩ := ih (r := (divw r u d).2) (by rw [divw_remainder]; exact Nat.mod_lt _ hd)
    have hsplit : r * 2 ^ (64 * (u :: us).length) + ofWords (u :: us).reverse =
        (divw r u d).2 * 2 ^ (64 * us.length) + ofWords us.reverse +
          d * (2 ^ (64 * us.length) * ((r * 2 ^ 64 + u.toNat) / d)) := by
      have hdiv : (divw r u d).2 + d * ((r * 2 ^ 64 + u.toNat) / d) = r * 2 ^ 64 + u.toNat := by
        rw [divw_remainder, Nat.mod_add_div]
      rw [List.reverse_cons, ofWords_concat, List.length_reverse, List.length_cons, Nat.mul_succ, pow_add]
      linear_combination 2 ^ (64 * us.length) * hdiv.symm
    rw [shortDivLoop_cons, hsplit, Nat.add_mul_div_left _ _ hd, Nat.add_mul_mod_self_left, ← hq, ← hrem, List.reverse_cons,
      ofWords_concat, List.length_reverse, hlen, divw_quotient_toNat u hr]
    exact ⟨congrArg Nat.succ hlen, rfl, rfl⟩

/-- Settles O54: the loop starts with the remainder 0 and takes all the words. -/
theorem shortDivisionIsExact : Obligations.ShortDivisionIsExact := by
  intro us d hd _
  obtain ⟨_, hq, hr⟩ := shortDivLoop_value us.reverse hd
  rw [List.reverse_reverse, zero_mul, zero_add] at hq hr
  exact ⟨hq, hr⟩

end Sys2Proof.Machine
end

section
/-! PROOFS. Algorithm D and the kernel (44_divide.md R174, R176 to R180): the digit estimate is at most 2 too large, so two
add-backs correct it, and the digits are those of the quotient. -/

namespace Sys2Proof.Machine

/-! ## Words and windows of a dividend -/

theorem ofWords_take_drop (ws : List Word) (k : Nat) :
    ofWords (ws.take k) = ofWords ws % 2 ^ (64 * k) ∧ ofWords (ws.drop k) = ofWords ws / 2 ^ (64 * k) := by
  by_cases hk : k ≤ ws.length
  · have hlen : (ws.take k).length = k := by simp [hk]
    have hlt := ofWords_lt (ws.take k)
    have hsplit := ofWords_append (ws.take k) (ws.drop k)
    rw [List.take_append_drop, hlen] at hsplit
    rw [hlen] at hlt
    rw [hsplit, Nat.add_mul_mod_self_left, Nat.mod_eq_of_lt hlt, Nat.add_mul_div_left _ _ (by positivity),
      Nat.div_eq_of_lt hlt, Nat.zero_add]
    exact ⟨rfl, rfl⟩
  · have hlt : ofWords ws < 2 ^ (64 * k) :=
      (ofWords_lt ws).trans_le (Nat.pow_le_pow_right (by decide) (by omega))
    rw [List.take_of_length_le (by omega), List.drop_of_length_le (by omega), Nat.mod_eq_of_lt hlt, Nat.div_eq_of_lt hlt]
    exact ⟨rfl, rfl⟩

/-- Word `i` of a list as a digit of its value. -/
theorem getD_toNat (ws : List Word) {i : Nat} (hi : i < ws.length) :
    (ws.getD i 0#64).toNat = ofWords ws / 2 ^ (64 * i) % 2 ^ 64 := by
  have := getD_toWords ws.length (ofWords ws) i hi
  rwa [toWords_ofWords] at this

/-- The top word of a number that has no digit above it. -/
theorem getD_toNat_of_lt {ws : List Word} {i : Nat} (hi : i < ws.length) (hlt : ofWords ws < 2 ^ (64 * (i + 1))) :
    (ws.getD i 0#64).toNat = ofWords ws / 2 ^ (64 * i) := by
  rw [getD_toNat ws hi, Nat.mod_eq_of_lt]
  exact Nat.div_lt_of_lt_mul (by rwa [← pow_add])

/-! ## The digit (R177, R178) -/

/-- A refinement lowers the estimate only while it is above a `q` whose product with the two top words of the divisor the
three top words of the window hold. -/
theorem refine_bounds {v w q : Nat} (hq : q * v ≤ w) (k : Nat) {qhat rhat : Nat} (hle : q ≤ qhat)
    (hrhat : qhat * (v / 2 ^ 64) + rhat = w / 2 ^ 64) :
    q ≤ (refine (v / 2 ^ 64) (v % 2 ^ 64) (w % 2 ^ 64) k qhat rhat).1 ∧
    (refine (v / 2 ^ 64) (v % 2 ^ 64) (w % 2 ^ 64) k qhat rhat).1 ≤ qhat := by
  induction k generalizing qhat rhat with
  | zero => exact ⟨hle, le_rfl⟩
  | succ k ih =>
    rw [refine]
    split
    · next htest =>
      have hv := Nat.div_add_mod v (2 ^ 64)
      have hw := Nat.div_add_mod w (2 ^ 64)
      have htoo_large : w < qhat * v := by
        rw [← hv, ← hw, ← hrhat, Nat.mul_add]
        linarith [htest.2]
      have hlt : q < qhat := lt_of_mul_lt_mul_right' (hq.trans_lt htoo_large)
      obtain ⟨p, rfl⟩ : ∃ p, qhat = p + 1 := ⟨qhat - 1, by omega⟩
      obtain ⟨h1, h2⟩ := ih (qhat := p) (rhat := rhat + v / 2 ^ 64) (by omega) (by rw [← hrhat]; ring)
      exact ⟨h1, h2.trans p.le_succ⟩
    · exact ⟨hle, le_rfl⟩

/-- The unrefined estimate of a quotient below `2^64`, from the parts of divisor and window above `p`: not too small, and at
most 2 too large where the divisor's top word has its top bit set. -/
theorem unrefined_estimate_bounds {p v w : Nat} (hp : 0 < p) (hnorm : 2 ^ 63 ≤ v / p) (hw : w / v < 2 ^ 64) :
    w / v ≤ min (2 ^ 64 - 1) (w / p / (v / p)) ∧ min (2 ^ 64 - 1) (w / p / (v / p)) ≤ w / v + 2 := by
  have hv : 0 < v := Nat.pos_of_ne_zero fun h => by simp [h] at hnorm
  have hd : 0 < v / p := by omega
  constructor
  · refine le_min (by omega) ?_
    rw [Nat.le_div_iff_mul_le hd, Nat.le_div_iff_mul_le hp, mul_assoc]
    calc w / v * (v / p * p) ≤ w / v * v := Nat.mul_le_mul_left _ (Nat.div_mul_le_self v p)
      _ ≤ w := Nat.div_mul_le_self w v
  · by_contra! hlarge
    set d := v / p
    set q := w / v
    set e := min (2 ^ 64 - 1) (w / p / d)
    have hlow : e * d * p ≤ w :=
      (Nat.mul_le_mul_right p ((Nat.le_div_iff_mul_le hd).mp (min_le_right _ _))).trans (Nat.div_mul_le_self w p)
    have hhigh : w < (q + 1) * (d + 1) * p := by
      calc w < v * (q + 1) := Nat.lt_mul_div_succ w hv
        _ ≤ p * (d + 1) * (q + 1) := Nat.mul_le_mul_right _ (Nat.lt_mul_div_succ v hp).le
        _ = (q + 1) * (d + 1) * p := by ring
    have hlt : e * d < (q + 1) * (d + 1) := lt_of_mul_lt_mul_right' (hlow.trans_lt hhigh)
    have hle : (q + 3) * d ≤ e * d := Nat.mul_le_mul_right d hlarge
    nlinarith

/-- The estimate from the two top words of the divisor and the three top words of the window, those above `p`. -/
theorem estimate_bounds {p v w : Nat} (hp : 0 < p) (hnorm : 2 ^ 63 ≤ v / p / 2 ^ 64) (hw : w / v < 2 ^ 64) :
    w / v ≤ (estimate (v / p / 2 ^ 64) (v / p % 2 ^ 64) (w / p / 2 ^ 64) (w / p % 2 ^ 64)).1 ∧
    (estimate (v / p / 2 ^ 64) (v / p % 2 ^ 64) (w / p / 2 ^ 64) (w / p % 2 ^ 64)).1 ≤ w / v + 2 := by
  obtain ⟨hlow, hhigh⟩ := unrefined_estimate_bounds (p := p * 2 ^ 64) (v := v) (w := w) (by positivity)
    (by rwa [← Nat.div_div_eq_div_mul]) hw
  rw [← Nat.div_div_eq_div_mul, ← Nat.div_div_eq_div_mul] at hlow hhigh
  have hq : w / v * (v / p) ≤ w / p := by
    rw [Nat.le_div_iff_mul_le hp, mul_assoc]
    exact (Nat.mul_le_mul_left _ (Nat.div_mul_le_self v p)).trans (Nat.div_mul_le_self w v)
  have hfit : min (2 ^ 64 - 1) (w / p / 2 ^ 64 / (v / p / 2 ^ 64)) * (v / p / 2 ^ 64) ≤ w / p / 2 ^ 64 :=
    (Nat.mul_le_mul_right _ (min_le_right _ _)).trans (Nat.div_mul_le_self _ _)
  obtain ⟨h1, h2⟩ := refine_bounds hq 2 hlow (Nat.add_sub_cancel' hfit)
  exact ⟨h1, h2.trans hhigh⟩

/-- Add-backs undo an estimate that is `i` too large, if the loop has `i` turns. -/
theorem addBack_of_excess {v r q i k : Nat} (hr : r < v) (hi : i ≤ k) :
    addBack v k ((r : Int) - (i * v : Nat)) (q + i) = ((r : Int), q) := by
  induction k generalizing i with
  | zero =>
    obtain rfl : i = 0 := by omega
    simp [addBack]
  | succ k ih =>
    rw [addBack]
    cases i with
    | zero => simp
    | succ i =>
      have hneg : (r : Int) - ((i + 1) * v : Nat) < 0 := by
        have : r < (i + 1) * v := hr.trans_le (Nat.le_mul_of_pos_left v (by omega))
        omega
      have hback : (r : Int) - ((i + 1) * v : Nat) + v = r - (i * v : Nat) := by push_cast; ring
      rw [if_pos hneg, hback]
      exact ih (by omega)

/-- Multiply, subtract and add back from an estimate at most 2 too large: remainder and quotient of the window. -/
theorem addBack_of_estimate {v w qhat : Nat} (hv : 0 < v) (hlow : w / v ≤ qhat) (hhigh : qhat ≤ w / v + 2) :
    addBack v 2 ((w : Int) - (qhat * v : Nat)) qhat = (((w % v : Nat) : Int), w / v) := by
  obtain ⟨i, rfl⟩ := Nat.exists_eq_add_of_le hlow
  have hdiff : (w : Int) - ((w / v + i) * v : Nat) = ((w % v : Nat) : Int) - (i * v : Nat) := by
    have : ((w % v + v * (w / v) : Nat) : Int) = w := congrArg Nat.cast (Nat.mod_add_div w v)
    push_cast at this ⊢
    linear_combination -this
  rw [hdiff]
  exact addBack_of_excess (Nat.mod_lt w hv) (by omega)

/-! The model binds the results of its loops by matches. To compare two such matches, Lean's kernel evaluates the loop inside,
down to comparisons with `2^64` by counting. So the three proofs that unfold one (`divDigit_of_correction`,
`divDigits_eq_digitLoop`, `algorithmD_of_digits`) first replace the loop by a variable that equals it. -/

/-- The estimate that the datapath makes at position `j`, from the top words of the divisor `vn` and of the window of `un`, with
its remainder. -/
def digitEstimate (vn : List Word) (j : Nat) (un : List Word) : Nat × Nat :=
  estimate (vn.getD (vn.length - 1) 0#64).toNat (vn.getD (vn.length - 2) 0#64).toNat
    ((un.getD (j + vn.length) 0#64).toNat * 2 ^ 64 + (un.getD (j + vn.length - 1) 0#64).toNat)
    (un.getD (j + vn.length - 2) 0#64).toNat

/-- Multiply, subtract and add back at position `j`: the window's new value and the digit. -/
def digitCorrection (vn : List Word) (j : Nat) (un : List Word) : Int × Nat :=
  addBack (ofWords vn) 2
    ((ofWords ((un.drop j).take (vn.length + 1)) : Int) - ((digitEstimate vn j un).1 * ofWords vn : Nat))
    (digitEstimate vn j un).1

/-- One position by its correction. -/
theorem divDigit_of_correction {vn un : List Word} {j q : Nat} {t : Int} (h : digitCorrection vn j un = (t, q)) :
    divDigit vn j un = (BitVec.ofNat 64 q, un.take j ++ toWords (vn.length + 1) t.toNat ++ un.drop (j + vn.length + 1)) := by
  obtain ⟨loop, hloop⟩ : ∃ loop, loop = addBack := ⟨addBack, rfl⟩
  delta digitCorrection digitEstimate at h
  conv => lhs; fun; fun; fun; delta divDigit
  rw [← hloop] at h ⊢
  extract_lets n word qhat window
  change loop (ofWords vn) 2 (↑(ofWords window) - ↑(qhat * ofWords vn)) qhat = (t, q) at h
  rw [h]

theorem pow_word_succ (i : Nat) : 2 ^ (64 * (i + 1)) = 2 ^ (64 * i) * 2 ^ 64 := by rw [Nat.mul_succ, pow_add]

/-- The two top words of a list make the number above its words `0` to `i`. -/
theorem top_words_of_lt {ws : List Word} {i : Nat} (hi : i + 2 < ws.length) (hlt : ofWords ws < 2 ^ (64 * (i + 3))) :
    (ws.getD (i + 2) 0#64).toNat * 2 ^ 64 + (ws.getD (i + 1) 0#64).toNat = ofWords ws / 2 ^ (64 * i) / 2 ^ 64 := by
  rw [getD_toNat_of_lt hi hlt, getD_toNat ws (by omega), pow_word_succ (i + 1), ← Nat.div_div_eq_div_mul, Nat.div_add_mod',
    pow_word_succ, Nat.div_div_eq_div_mul]

/-- What holds before the digit of position `j`: the divisor is normalized, the window lies in the dividend, and the number
still to be divided has no digit at a higher position. -/
structure AtPosition (vn un : List Word) (j : Nat) : Prop where
  two_le_length : 2 ≤ vn.length
  normalized : 2 ^ (64 * vn.length) ≤ 2 * ofWords vn
  window_le : j + vn.length < un.length
  dividend_lt : ofWords un < ofWords vn * 2 ^ (64 * (j + 1))

section
variable {vn un : List Word} {j : Nat} (h : AtPosition vn un j)
include h

theorem AtPosition.divisor_pos : 0 < ofWords vn := Nat.pos_of_mul_pos_right ((Nat.zero_le _).trans_lt h.dividend_lt)

/-- The dividend has no word above the window. -/
theorem AtPosition.dividend_lt_pow : ofWords un < 2 ^ (64 * (j + vn.length + 1)) := by
  calc ofWords un < ofWords vn * 2 ^ (64 * (j + 1)) := h.dividend_lt
    _ ≤ 2 ^ (64 * vn.length) * 2 ^ (64 * (j + 1)) := Nat.mul_le_mul_right _ (ofWords_lt vn).le
    _ = 2 ^ (64 * (j + vn.length + 1)) := by rw [← pow_add]; congr 1; ring

theorem AtPosition.digit_lt : ofWords un / 2 ^ (64 * j) / ofWords vn < 2 ^ 64 := by
  rw [Nat.div_div_eq_div_mul]
  refine Nat.div_lt_of_lt_mul (h.dividend_lt.trans_eq ?_)
  rw [Nat.mul_succ, pow_add]
  ring

theorem AtPosition.window_value : ofWords ((un.drop j).take (vn.length + 1)) = ofWords un / 2 ^ (64 * j) := by
  rw [(ofWords_take_drop _ _).1, (ofWords_take_drop _ _).2, Nat.mod_eq_of_lt]
  refine Nat.div_lt_of_lt_mul (h.dividend_lt_pow.trans_eq ?_)
  rw [← pow_add]
  congr 1
  ring

/-- The estimate at position `j` is the digit or at most 2 more. -/
theorem AtPosition.digitEstimate_bounds : ofWords un / 2 ^ (64 * j) / ofWords vn ≤ (digitEstimate vn j un).1 ∧
    (digitEstimate vn j un).1 ≤ ofWords un / 2 ^ (64 * j) / ofWords vn + 2 := by
  have htwo := h.two_le_length
  have hnorm := h.normalized
  have hlen := h.window_le
  obtain ⟨k, hk⟩ : ∃ k, vn.length = k + 2 := ⟨vn.length - 2, by omega⟩
  have hv := ofWords_lt vn
  have hlt := h.dividend_lt_pow
  rw [hk] at hlen hlt hnorm hv
  have hv1 : (vn.getD (vn.length - 1) 0#64).toNat = ofWords vn / 2 ^ (64 * k) / 2 ^ 64 := by
    rw [show vn.length - 1 = k + 1 by omega, getD_toNat_of_lt (by omega) hv, pow_word_succ, Nat.div_div_eq_div_mul]
  have hv2 : (vn.getD (vn.length - 2) 0#64).toNat = ofWords vn / 2 ^ (64 * k) % 2 ^ 64 := by
    rw [show vn.length - 2 = k by omega, getD_toNat vn (by omega)]
  have hw : ofWords un / 2 ^ (64 * (j + k)) = ofWords un / 2 ^ (64 * j) / 2 ^ (64 * k) := by
    rw [Nat.mul_add, pow_add, Nat.div_div_eq_div_mul]
  have hnum : (un.getD (j + vn.length) 0#64).toNat * 2 ^ 64 + (un.getD (j + vn.length - 1) 0#64).toNat =
      ofWords un / 2 ^ (64 * j) / 2 ^ (64 * k) / 2 ^ 64 := by
    rw [show j + vn.length - 1 = j + k + 1 by omega, show j + vn.length = j + k + 2 by omega, ← hw]
    exact top_words_of_lt (by omega) hlt
  have hu2 : (un.getD (j + vn.length - 2) 0#64).toNat = ofWords un / 2 ^ (64 * j) / 2 ^ (64 * k) % 2 ^ 64 := by
    rw [show j + vn.length - 2 = j + k by omega, getD_toNat un (by omega), hw]
  have htop : 2 ^ 63 ≤ ofWords vn / 2 ^ (64 * k) / 2 ^ 64 := by
    rw [Nat.div_div_eq_div_mul, Nat.le_div_iff_mul_le (by positivity)]
    rw [pow_word_succ, pow_word_succ] at hnorm
    linarith
  rw [digitEstimate, hv1, hv2, hnum, hu2]
  exact estimate_bounds (by positivity) htop h.digit_lt

/-- Position `j` divides the window by the divisor: quotient and remainder. -/
theorem AtPosition.digitCorrection_value : digitCorrection vn j un =
    (((ofWords un / 2 ^ (64 * j) % ofWords vn : Nat) : Int), ofWords un / 2 ^ (64 * j) / ofWords vn) := by
  obtain ⟨hlow, hhigh⟩ := h.digitEstimate_bounds
  rw [digitCorrection, h.window_value]
  exact addBack_of_estimate h.divisor_pos hlow hhigh

/-- The quotient of the window is the digit, and the remainder takes the window's place. -/
theorem AtPosition.divDigit_value : ∃ q un', divDigit vn j un = (q, un') ∧ q.toNat = ofWords un / 2 ^ (64 * j) / ofWords vn ∧
    un'.length = un.length ∧ ofWords un' = ofWords un % (2 ^ (64 * j) * ofWords vn) := by
  have hlen := h.window_le
  have hrem : ofWords un / 2 ^ (64 * j) % ofWords vn < 2 ^ (64 * (vn.length + 1)) :=
    ((Nat.mod_lt _ h.divisor_pos).trans (ofWords_lt vn)).trans_le (Nat.pow_le_pow_right (by decide) (by omega))
  have htake : (un.take j).length = j := List.length_take_of_le (by omega)
  refine ⟨_, _, divDigit_of_correction h.digitCorrection_value, ?_, ?_, ?_⟩
  · rw [BitVec.toNat_ofNat, Nat.mod_eq_of_lt h.digit_lt]
  · simp only [List.length_append, htake, toWords_length, List.length_drop]
    omega
  · rw [Int.toNat_natCast, ofWords_append, ofWords_append, (ofWords_take_drop _ _).1, (ofWords_take_drop _ _).2,
      Nat.div_eq_of_lt h.dividend_lt_pow, mul_zero, add_zero, htake, ofWords_toWords_of_lt hrem, Nat.mod_mul]

end

/-! ## All digits (R177 to R179) -/

/-- The loop over the positions, for any digit step. -/
def digitLoop (digit : Nat → List Word → Word × List Word) : Nat → List Word → List Word × List Word
  | 0, un => ([], un)
  | j + 1, un =>
    ((digitLoop digit j (digit j un).2).1 ++ [(digit j un).1], (digitLoop digit j (digit j un).2).2)

/-- The datapath's loop is the one over its own digit step. -/
theorem divDigits_eq_digitLoop : divDigits = fun vn => digitLoop (divDigit vn) := by
  obtain ⟨digit, hdigit⟩ : ∃ digit, digit = divDigit := ⟨divDigit, rfl⟩
  have hbody : divDigits._f = divDigits._f := rfl
  conv at hbody => rhs; delta divDigits._f
  delta divDigits
  rw [hbody, ← hdigit]
  funext vn k un
  clear hbody
  induction k generalizing un with
  | zero => rfl
  | succ k ih => rw [digitLoop, ← ih]

theorem digitLoop_succ {digit : Nat → List Word → Word × List Word} {un un1 un2 qs : List Word} {k : Nat} {q : Word}
    (hdigit : digit k un = (q, un1)) (hrest : digitLoop digit k un1 = (qs, un2)) :
    digitLoop digit (k + 1) un = (qs ++ [q], un2) := by
  rw [digitLoop, hdigit, hrest]

/-- The positions `k - 1` to `0` divide a number whose quotient has at most `k` words. -/
theorem digitLoop_divDigit_value {vn : List Word} (hn : 2 ≤ vn.length) (hnorm : 2 ^ (64 * vn.length) ≤ 2 * ofWords vn) (k : Nat)
    {un : List Word} (hlen : k + vn.length ≤ un.length) (hun : ofWords un < ofWords vn * 2 ^ (64 * k)) :
    ∃ qs un', digitLoop (divDigit vn) k un = (qs, un') ∧ qs.length = k ∧ ofWords qs = ofWords un / ofWords vn ∧
      ofWords un' = ofWords un % ofWords vn := by
  induction k generalizing un with
  | zero =>
    rw [mul_zero, pow_zero, mul_one] at hun
    exact ⟨[], un, rfl, rfl, (Nat.div_eq_of_lt hun).symm, (Nat.mod_eq_of_lt hun).symm⟩
  | succ k ih =>
    have h : AtPosition vn un k := ⟨hn, hnorm, by omega, hun⟩
    obtain ⟨q, un1, hdigit, hq, hlen1, hun1⟩ := h.divDigit_value
    have hlt : ofWords un1 < ofWords vn * 2 ^ (64 * k) := by
      rw [hun1, mul_comm]
      exact Nat.mod_lt _ (Nat.mul_pos h.divisor_pos (Nat.two_pow_pos _))
    obtain ⟨qs, un2, hrest, hqlen, hqs, hun2⟩ := ih (by omega) hlt
    refine ⟨_, _, digitLoop_succ hdigit hrest, ?_, ?_, ?_⟩
    · rw [List.length_append, hqlen, List.length_singleton]
    · rw [ofWords_concat, hqlen, hqs, hun1, hq, Nat.mod_mul_left_div_self, Nat.div_div_eq_div_mul (ofWords un),
        mul_comm (2 ^ (64 * k)) (ofWords vn), ← Nat.div_div_eq_div_mul, Nat.mod_add_div]
    · rw [hun2, hun1, Nat.mod_mul_left_mod]

/-! ## Significant words and normalization (R174, R176) -/

theorem sigWords_concat (ws : List Word) (w : Word) :
    sigWords (ws ++ [w]) = if w = 0#64 then sigWords ws else ws.length + 1 := by
  rw [sigWords, List.reverse_append, List.reverse_singleton, List.singleton_append, List.dropWhile_cons]
  by_cases hw : w = 0#64 <;> simp [hw, sigWords]

/-- The top significant word is the highest that is not zero. -/
theorem sigWords_spec (ws : List Word) : sigWords ws ≤ ws.length ∧ ofWords ws < 2 ^ (64 * sigWords ws) ∧
    (ofWords ws ≠ 0 → 0 < sigWords ws ∧ 2 ^ (64 * (sigWords ws - 1)) ≤ ofWords ws) := by
  induction ws using List.reverseRecOn with
  | nil => exact ⟨le_rfl, Nat.zero_lt_one, fun h => absurd rfl h⟩
  | append_singleton ws w ih =>
    rw [sigWords_concat, ofWords_concat, List.length_append, List.length_singleton]
    split
    · next hw =>
      obtain ⟨hle, hrest⟩ := ih
      rw [hw, BitVec.toNat_zero, mul_zero, add_zero]
      exact ⟨by omega, hrest⟩
    · next hw =>
      have hlt := ofWords_lt (ws ++ [w])
      rw [ofWords_concat, List.length_append, List.length_singleton] at hlt
      have hpos : 0 < w.toNat := Nat.pos_of_ne_zero fun h => hw (BitVec.eq_of_toNat_eq h)
      refine ⟨le_rfl, hlt, fun _ => ⟨ws.length.succ_pos, ?_⟩⟩
      rw [Nat.add_sub_cancel]
      exact (Nat.le_mul_of_pos_right _ hpos).trans (Nat.le_add_left _ _)

/-- Shifting a word by its leading zeros fills it up to the top bit. -/
theorem clz_normalizes {a : Word} (ha : a ≠ 0#64) :
    2 ^ 63 ≤ a.toNat * 2 ^ clz a ∧ (a.toNat + 1) * 2 ^ clz a ≤ 2 ^ 64 ∧ clz a < 64 := by
  have hne : a.toNat ≠ 0 := fun h => ha (BitVec.eq_of_toNat_eq h)
  have hlog : a.toNat.log2 < 64 := (Nat.log2_lt hne).mpr a.isLt
  have hlow := Nat.log2_self_le hne
  have hhigh : a.toNat + 1 ≤ 2 ^ (a.toNat.log2 + 1) := Nat.lt_log2_self
  rw [clz, if_neg ha]
  refine ⟨?_, ?_, by omega⟩
  · calc 2 ^ 63 = 2 ^ a.toNat.log2 * 2 ^ (63 - a.toNat.log2) := by rw [← pow_add]; congr 1; omega
      _ ≤ a.toNat * 2 ^ (63 - a.toNat.log2) := Nat.mul_le_mul_right _ hlow
  · calc (a.toNat + 1) * 2 ^ (63 - a.toNat.log2) ≤ 2 ^ (a.toNat.log2 + 1) * 2 ^ (63 - a.toNat.log2) :=
          Nat.mul_le_mul_right _ hhigh
      _ = 2 ^ 64 := by rw [← pow_add]; congr 1; omega

/-- The normalized divisor has the same count of words, and its top bit is set. -/
theorem normalized_divisor {v k s d : Nat} (hd : v / 2 ^ (64 * k) = d) (hlow : 2 ^ 63 ≤ d * 2 ^ s)
    (hhigh : (d + 1) * 2 ^ s ≤ 2 ^ 64) : v * 2 ^ s < 2 ^ (64 * (k + 1)) ∧ 2 ^ (64 * (k + 1)) ≤ 2 * (v * 2 ^ s) := by
  have hv := Nat.lt_mul_div_succ v (Nat.two_pow_pos (64 * k))
  have hv' := Nat.div_mul_le_self v (2 ^ (64 * k))
  rw [hd] at hv hv'
  rw [pow_word_succ]
  constructor
  · calc v * 2 ^ s < 2 ^ (64 * k) * (d + 1) * 2 ^ s := Nat.mul_lt_mul_of_pos_right hv (by positivity)
      _ ≤ 2 ^ (64 * k) * 2 ^ 64 := by rw [mul_assoc]; exact Nat.mul_le_mul_left _ hhigh
  · calc 2 ^ (64 * k) * 2 ^ 64 = 2 * (2 ^ (64 * k) * 2 ^ 63) := by ring
      _ ≤ 2 * (2 ^ (64 * k) * (d * 2 ^ s)) := Nat.mul_le_mul_left _ (Nat.mul_le_mul_left _ hlow)
      _ = 2 * (d * 2 ^ (64 * k) * 2 ^ s) := by ring
      _ ≤ 2 * (v * 2 ^ s) := Nat.mul_le_mul_left _ (Nat.mul_le_mul_right _ hv')

/-- The shift `s` of the normalization. -/
def normalizingShift (vs : List Word) : Nat := clz (vs.getD (sigWords vs - 1) 0#64)

/-- Algorithm D by its digits. -/
theorem algorithmD_of_digits {us vs qs un : List Word}
    (h : digitLoop (divDigit (toWords (sigWords vs) (ofWords vs * 2 ^ normalizingShift vs))) (us.length - sigWords vs + 1)
      (toWords (us.length + 1) (ofWords us * 2 ^ normalizingShift vs)) = (qs, un)) :
    algorithmD us vs = (ofWords (qs ++ List.replicate (sigWords vs - 1) 0#64),
      ofWords (un.take (sigWords vs)) / 2 ^ normalizingShift vs) := by
  obtain ⟨loop, hloop⟩ : ∃ loop, loop = divDigits := ⟨divDigits, rfl⟩
  conv => lhs; fun; fun; delta algorithmD
  rw [← congrFun divDigits_eq_digitLoop, ← hloop] at h
  rw [← hloop]
  extract_lets n s vn wide
  change loop vn (us.length - n + 1) wide = (qs, un) at h
  rw [h]
  rfl

/-- What normalization gives for a divisor that is not zero: the top bit set, no bit lost. -/
theorem normalizingShift_spec {vs : List Word} (hne : ofWords vs ≠ 0) : normalizingShift vs < 64 ∧
    ofWords vs * 2 ^ normalizingShift vs < 2 ^ (64 * sigWords vs) ∧
    2 ^ (64 * sigWords vs) ≤ 2 * (ofWords vs * 2 ^ normalizingShift vs) := by
  obtain ⟨hle, hlt, hmin⟩ := sigWords_spec vs
  obtain ⟨hpos, hmin⟩ := hmin hne
  obtain ⟨k, hk⟩ : ∃ k, sigWords vs = k + 1 := ⟨sigWords vs - 1, by omega⟩
  rw [normalizingShift, hk, Nat.add_sub_cancel]
  rw [hk] at hlt
  rw [hk, Nat.add_sub_cancel] at hmin
  have htop := getD_toNat_of_lt (by omega) hlt
  have hnonzero : vs.getD k 0#64 ≠ 0#64 := fun h => by
    have hdiv := Nat.div_pos hmin (Nat.two_pow_pos _)
    rw [← htop, h] at hdiv
    exact absurd hdiv (by decide)
  obtain ⟨hlow, hhigh, hs⟩ := clz_normalizes hnonzero
  exact ⟨hs, normalized_divisor htop.symm hlow hhigh⟩

/-- Algorithm D divides: the digits of the normalized numbers are those of the quotient, and the shift is taken off the
remainder. -/
theorem algorithmD_value {us vs : List Word} (hne : ofWords vs ≠ 0) (hsig : 2 ≤ sigWords vs) (hle : sigWords vs ≤ us.length) :
    algorithmD us vs = (ofWords us / ofWords vs, ofWords us % ofWords vs) := by
  obtain ⟨-, hmin⟩ := (sigWords_spec vs).2.2 hne
  obtain ⟨hs, hvlt, hnorm⟩ := normalizingShift_spec hne
  have hshift : 0 < 2 ^ normalizingShift vs := Nat.two_pow_pos _
  have hv := ofWords_toWords_of_lt hvlt
  have hu : ofWords (toWords (us.length + 1) (ofWords us * 2 ^ normalizingShift vs)) = ofWords us * 2 ^ normalizingShift vs := by
    refine ofWords_toWords_of_lt ?_
    rw [pow_word_succ]
    exact Nat.mul_lt_mul'' (ofWords_lt us) (Nat.pow_lt_pow_right (by decide) hs)
  have hquotient : ofWords us < ofWords vs * 2 ^ (64 * (us.length - sigWords vs + 1)) := by
    calc ofWords us < 2 ^ (64 * us.length) := ofWords_lt us
      _ = 2 ^ (64 * (sigWords vs - 1)) * 2 ^ (64 * (us.length - sigWords vs + 1)) := by
          rw [← pow_add]
          congr 1
          omega
      _ ≤ _ := Nat.mul_le_mul_right _ hmin
  obtain ⟨qs, un, hloop, -, hq, hr⟩ := digitLoop_divDigit_value
    (vn := toWords (sigWords vs) (ofWords vs * 2 ^ normalizingShift vs)) (by rwa [toWords_length])
    (by rwa [toWords_length, hv]) (us.length - sigWords vs + 1)
    (un := toWords (us.length + 1) (ofWords us * 2 ^ normalizingShift vs))
    (by rw [toWords_length, toWords_length]; omega)
    (by rw [hu, hv, mul_right_comm]; exact Nat.mul_lt_mul_of_pos_right hquotient hshift)
  rw [hu, hv] at hq hr
  have hun : ofWords un < 2 ^ (64 * sigWords vs) := by
    rw [hr]
    exact (Nat.mod_lt _ (Nat.mul_pos (Nat.pos_of_ne_zero hne) hshift)).trans hvlt
  rw [algorithmD_of_digits hloop, ofWords_append, ofWords_replicate_zero, mul_zero, add_zero, (ofWords_take_drop _ _).1,
    Nat.mod_eq_of_lt hun, hq, hr, Nat.mul_div_mul_right _ _ hshift, Nat.mul_mod_mul_right, Nat.mul_div_cancel _ hshift]

/-! ## The kernel (R174, R180) -/

/-- Settles O55: short division for one significant word, Algorithm D for more. -/
theorem algorithmDIsCorrect : Obligations.AlgorithmDIsCorrect := by
  intro L N u v hNL hu hv hne
  have hus := ofWords_toWords_of_lt hu
  have hvs := ofWords_toWords_of_lt hv
  have hvs_ne : ofWords (toWords N v) ≠ 0 := by rwa [hvs]
  obtain ⟨hle, hlt, hpos⟩ := sigWords_spec (toWords N v)
  have hpos := (hpos hvs_ne).1
  rw [toWords_length] at hle
  rw [udivmod]
  by_cases hone : sigWords (toWords N v) = 1
  · have hword : ((toWords N v).getD 0 0#64).toNat = v := by
      rw [hone] at hlt
      rw [getD_toNat_of_lt (by rw [toWords_length]; omega) hlt, hvs, mul_zero, pow_zero, Nat.div_one]
    obtain ⟨hq, hr⟩ := shortDivisionIsExact (toWords L u) v (Nat.pos_of_ne_zero hne) (by rwa [hone, hvs] at hlt)
    simp only [if_pos hone, hword]
    rw [hq, hr, hus]
  · simp only [if_neg hone]
    rw [algorithmD_value hvs_ne (by omega) (by rw [toWords_length]; omega), hus, hvs]

end Sys2Proof.Machine
end

section
/-! PROOFS. The signed division on magnitudes and the datapath of DIVFW (44_divide.md R173, R182). -/

namespace Sys2Proof.Machine

/-- The remainder toward zero is that of the magnitudes, with the dividend's sign. -/
theorem sign_mul_natAbs_mod (A D : Int) : A.sign * (A.natAbs % D.natAbs : Nat) = trem A D := by
  have hdiv : ((A.natAbs % D.natAbs : Nat) : Int) + D.natAbs * (A.natAbs / D.natAbs : Nat) = A.natAbs := by
    exact_mod_cast Nat.mod_add_div A.natAbs D.natAbs
  have hA := Int.sign_mul_natAbs A
  have hD := Int.mul_sign_self D
  rw [trem, tdiv]
  linear_combination A.sign * hdiv + hA + A.sign * (A.natAbs / D.natAbs : Nat) * hD

theorem signedDivmod_value {L N : Nat} {A D : Int} (hNL : N ≤ L) (hA : A.natAbs < 2 ^ (64 * L)) (hD : D.natAbs < 2 ^ (64 * N))
    (hne : D ≠ 0) : signedDivmod L N A D = (tdiv A D, trem A D) := by
  rw [signedDivmod, algorithmDIsCorrect L N _ _ hNL hA hD (Int.natAbs_ne_zero.mpr hne), ← sign_mul_natAbs_mod]
  rfl

/-- The unsigned kernel gives the same operators on readings that are not negative. -/
theorem udivmod_value {L N u v : Nat} (hNL : N ≤ L) (hu : u < 2 ^ (64 * L)) (hv : v < 2 ^ (64 * N)) (hne : v ≠ 0) :
    (((udivmod L N u v).1 : Int), ((udivmod L N u v).2 : Int)) = (tdiv u v, trem u v) := by
  rw [algorithmDIsCorrect L N u v hNL hu hv hne, tdiv_eq, trem_eq, ← Int.ofNat_tdiv, ← Int.ofNat_tmod]

theorem natAbs_sval_lt {w : Nat} (hw : 0 < w) (v : BitVec w) : (sval v).natAbs < 2 ^ w := by
  have hle : (sval v).natAbs ≤ 2 ^ (w - 1) := by
    have hval := natAbs_val_le hw true v
    rw [if_pos rfl] at hval
    exact_mod_cast hval
  exact hle.trans_lt (Nat.pow_lt_pow_right (by decide) (by omega))

/-- The `2W`-bit dividend is the reading of the two halves side by side. -/
theorem val_append {w : Nat} (hw : 0 < w) (S : Bool) (h l : BitVec w) : val S (h ++ l) = fullDividend S h l := by
  rw [fullDividend_eq]
  cases S with
  | true => rw [val_true, val_true, BitVec.toInt_append, if_neg (by simpa using hw.ne'), mul_comm]; rfl
  | false =>
    rw [val_false, val_false, BitVec.toNat_append, ← Nat.shiftLeft_add_eq_or_of_lt l.isLt, Nat.shiftLeft_eq]
    push_cast
    rfl

theorem val_ne_zero_of_regular {w : Nat} {S : Bool} {a b : BitVec w} (h : divCase S a b = .regular) : val S b ≠ 0 := by
  intro hb
  rw [divCase, if_pos hb] at h
  cases h

/-- The divider on the readings of two patterns: the kernel for `S = 0`, on magnitudes for `S = 1`. -/
def readingDivmod (S : Bool) (L N : Nat) {wa wb : Nat} (a : BitVec wa) (b : BitVec wb) : Int × Int :=
  if S then signedDivmod L N (sval a) (sval b)
  else ((udivmod L N (uval a) (uval b)).1, (udivmod L N (uval a) (uval b)).2)

theorem divDatapath_eq (S : Bool) (n : Width) (a b : BitVec n.bits) : divDatapath S n a b =
    (bits n.bits (readingDivmod S n.words n.words a b).1, bits n.bits (readingDivmod S n.words n.words a b).2) := by
  cases S <;> rfl

theorem divfwDatapath_eq (S : Bool) (n : Width) (v h l : BitVec n.bits) : divfwDatapath S n v h l =
    (bits n.bits (readingDivmod S (2 * n.words) n.words (h ++ l) v).1,
      bits n.bits (readingDivmod S (2 * n.words) n.words (h ++ l) v).2) := by
  cases S <;> rfl

/-- The divider is exact on patterns of `L` and `N` words. -/
theorem readingDivmod_value {S : Bool} {L N wa wb : Nat} {a : BitVec wa} {b : BitVec wb} (hwa : wa = 64 * L)
    (hwb : wb = 64 * N) (hN : 0 < N) (hNL : N ≤ L) (hb : val S b ≠ 0) :
    readingDivmod S L N a b = (tdiv (val S a) (val S b), trem (val S a) (val S b)) := by
  subst hwa hwb
  cases S with
  | true => exact signedDivmod_value hNL (natAbs_sval_lt (by omega) a) (natAbs_sval_lt (by omega) b) hb
  | false => exact udivmod_value hNL (uval_lt a) (uval_lt b) (mt (val_eq_zero_iff false b).mpr hb)

/-- Settles O56: the divider gives the integers whose bits the commands write. -/
theorem signedDividerAgrees : Obligations.SignedDividerAgrees := by
  constructor
  · intro S n a b hcase
    rw [divDatapath_eq, readingDivmod_value rfl rfl (words_pos n) le_rfl (val_ne_zero_of_regular hcase), divQuotient,
      divRemainder, hcase]
  · intro S n v h l hD
    have hbits : n.bits + n.bits = 64 * (2 * n.words) := by
      rw [Width.bits]
      omega
    rw [divfwDatapath_eq, readingDivmod_value hbits rfl (words_pos n) (by omega) hD,
      val_append (Nat.mul_pos (by decide) (words_pos n)), divfwQuotient, divfwRemainder, if_neg hD, if_neg hD]

end Sys2Proof.Machine
end

section
/-! PROOFS. NOT, AND, OR, XOR, SHL and SHR (45_bitwise_shift.md R210 to R216) and the shift amount modulo `W` (R219). -/

namespace Sys2Proof.Machine

open Sys2Proof.Spec

/-! ## Bitwise commands -/

theorem testBit_uval {w : Nat} (v : BitVec w) (i : Nat) : (uval v).testBit i = v.getLsbD i := BitVec.testBit_toNat v

theorem State.testBit_uval (s : State) (r : Reg) (i : Nat) : (s.uval r).testBit i = (s.reg r).getLsbD i :=
  Machine.testBit_uval (s.reg r) i

/-- A one-destination command that does not report leaves its result's bits and clears `OV`, and nothing else changes. -/
theorem complete_noOverflow_testBit (s : State) (rd : Reg) (v : BitVec s.W) :
    ∃ t, complete s rd v noOverflow = .next t ∧ (∀ i, (t.uval rd).testBit i = v.getLsbD i) ∧ t.ov = false ∧
      OnlyWrites [rd] s t := by
  obtain ⟨t, ht, huval, _, hov, hframe⟩ := complete_onlyWrites s rd v noOverflow
  exact ⟨t, ht, fun i => by rw [huval, testBit_uval], hov, hframe⟩

/-- Settles O36: the library's complement has the opposite of each bit of the operand. -/
theorem notComplementsEveryBit : Obligations.NotComplementsEveryBit := by
  refine ⟨selectsR1_of_row (by decide) rfl, fun S rd rs1 s => ?_⟩
  obtain ⟨t, ht, hbit, hov, hframe⟩ := complete_noOverflow_testBit s rd (~~~(s.reg rs1))
  refine ⟨t, ht, fun i hi => ?_, hov, hframe⟩
  rw [hbit, BitVec.getLsbD_not, decide_eq_true hi, Bool.true_and, State.testBit_uval]

/-- Settles O37: the library's three operators act on each bit. -/
theorem logicalCommandsActBitByBit : Obligations.LogicalCommandsActBitByBit := by
  refine ⟨⟨selectsR2_of_row (by decide) rfl, fun S rd rs1 rs2 s => ?_⟩,
    ⟨selectsR2_of_row (by decide) rfl, fun S rd rs1 rs2 s => ?_⟩,
    ⟨selectsR2_of_row (by decide) rfl, fun S rd rs1 rs2 s => ?_⟩⟩
  · obtain ⟨t, ht, hbit, hrest⟩ := complete_noOverflow_testBit s rd (s.reg rs1 &&& s.reg rs2)
    exact ⟨t, ht, fun i => by rw [hbit, BitVec.getLsbD_and, State.testBit_uval, State.testBit_uval], hrest⟩
  · obtain ⟨t, ht, hbit, hrest⟩ := complete_noOverflow_testBit s rd (s.reg rs1 ||| s.reg rs2)
    exact ⟨t, ht, fun i => by rw [hbit, BitVec.getLsbD_or, State.testBit_uval, State.testBit_uval], hrest⟩
  · obtain ⟨t, ht, hbit, hrest⟩ := complete_noOverflow_testBit s rd (s.reg rs1 ^^^ s.reg rs2)
    exact ⟨t, ht, fun i => by rw [hbit, BitVec.getLsbD_xor, State.testBit_uval, State.testBit_uval], hrest⟩

/-! ## Shifts -/

section
variable {w : Nat} (a : BitVec w) (k : Nat)

/-- The left shift is the library's. -/
theorem shiftLeft_eq : shiftLeft a k = a <<< k := by
  apply uval_inj
  rw [shiftLeft, uval_bits_natCast, ← Nat.shiftLeft_eq]
  exact (BitVec.toNat_shiftLeft).symm

/-- The signed reading of the library's arithmetic shift, and the unsigned one of its logical shift, are the floor. -/
theorem val_libraryShiftRight (S : Bool) :
    val S (if S then a.sshiftRight k else a >>> k) = floorDiv (val S a) (2 ^ k) := by
  rw [floorDiv]
  cases S with
  | true => rw [if_pos rfl, val_true, val_true, BitVec.toInt_sshiftRight, Int.shiftRight_eq_div_pow]
  | false =>
    rw [if_neg Bool.false_ne_true, val_false, val_false, BitVec.toNat_ushiftRight, Nat.shiftRight_eq_div_pow]
    rfl

/-- The right shift is the library's arithmetic shift for `S = 1`, its logical shift for `S = 0`. -/
theorem shiftRight_eq (S : Bool) : shiftRight S a k = if S then a.sshiftRight k else a >>> k := by
  rw [shiftRight, ← val_libraryShiftRight, bits_val]

/-- The floor of a reading over a power of two is a reading, so taking it to bits loses nothing. -/
theorem val_shiftRight (S : Bool) : val S (shiftRight S a k) = floorDiv (val S a) (2 ^ k) := by
  rw [shiftRight_eq, val_libraryShiftRight]

end

@[simp] theorem shiftLeft_zero {w : Nat} (a : BitVec w) : shiftLeft a 0 = a := by
  rw [shiftLeft_eq, BitVec.shiftLeft_zero]

@[simp] theorem shiftRight_zero {w : Nat} (S : Bool) (a : BitVec w) : shiftRight S a 0 = a := by
  rw [shiftRight, floorDiv, pow_zero, Nat.cast_one, Int.ediv_one, bits_val]

/-- The integer floor is the floor of the rational quotient. -/
theorem floorDiv_two_pow_eq_floor (n : Int) (k : Nat) : floorDiv n (2 ^ k) = ⌊(n : Rat) / 2 ^ k⌋ := by
  rw [floorDiv, ← Rat.floor_intCast_div_natCast]
  push_cast
  rfl

theorem exec_shl (S : Bool) (rd rs1 rs2 : Reg) (s : State) : exec (.shl S rd rs1 rs2) s =
    complete s rd (shiftLeft (s.reg rs1) (shiftAmount (s.reg rs2))) noOverflow := rfl

theorem exec_shr (S : Bool) (rd rs1 rs2 : Reg) (s : State) : exec (.shr S rd rs1 rs2) s =
    complete s rd (shiftRight S (s.reg rs1) (shiftAmount (s.reg rs2))) noOverflow := rfl

/-- Settles O38: SHL completes with the product modulo `2^W`. -/
theorem shlMultipliesByAPowerOfTwo : Obligations.ShlMultipliesByAPowerOfTwo := by
  refine ⟨selectsR2_of_row (by decide) rfl, fun S rd rs1 rs2 s => ?_⟩
  obtain ⟨t, ht, huval, _, hov, hframe⟩ :=
    complete_onlyWrites s rd (shiftLeft (s.reg rs1) (shiftAmount (s.reg rs2))) noOverflow
  exact ⟨t, ht, huval.trans (uval_bits_natCast _), hov, hframe⟩

/-- Settles O39: SHR completes with the floor, in the reading that `S` selects. -/
theorem shrDividesByAPowerOfTwo : Obligations.ShrDividesByAPowerOfTwo := by
  refine ⟨selectsR2_of_row (by decide) rfl, fun S rd rs1 rs2 s => ?_⟩
  obtain ⟨t, ht, _, hval, hov, hframe⟩ :=
    complete_onlyWrites s rd (shiftRight S (s.reg rs1) (shiftAmount (s.reg rs2))) noOverflow
  refine ⟨t, ht, ?_, hov, hframe⟩
  rw [hval, val_shiftRight, floorDiv_two_pow_eq_floor]
  rfl

/-! ## The amount modulo `W` (R219) -/

theorem shiftAmount_congr {w : Nat} {m m' : BitVec w} {k : Int} (h : sval m' = sval m + k * w) :
    shiftAmount m' = shiftAmount m := by
  rw [shiftAmount, shiftAmount, emod, emod, h, Int.add_mul_emod_self_right]

theorem shiftAmount_eq_zero {w : Nat} {m : BitVec w} {k : Int} (h : sval m = k * w) : shiftAmount m = 0 := by
  rw [shiftAmount, emod, h, Int.mul_emod_left, Int.toNat_zero]

/-- Settles O40: the commands see the amount only through its remainder modulo `W`, and a shift by 0 keeps the operand. -/
theorem shiftAmountsAreReducedModuloTheWidth : Obligations.ShiftAmountsAreReducedModuloTheWidth := by
  intro S rd rs1 rs2 rs3 s k
  refine ⟨fun h => ?_, fun h => ?_⟩
  · have hamount : shiftAmount (s.reg rs3) = shiftAmount (s.reg rs2) := shiftAmount_congr h
    exact ⟨by rw [exec_shl, exec_shl, hamount], by rw [exec_shr, exec_shr, hamount]⟩
  · have hamount : shiftAmount (s.reg rs2) = 0 := shiftAmount_eq_zero h
    obtain ⟨t, ht, huval, _⟩ := complete_onlyWrites s rd (s.reg rs1) noOverflow
    exact ⟨⟨t, by rw [exec_shl, hamount, shiftLeft_zero, ht], huval⟩,
      t, by rw [exec_shr, hamount, shiftRight_zero, ht], huval⟩

end Sys2Proof.Machine
end

section
/-! PROOFS. The word-then-bit shifts (45_bitwise_shift.md R217, R218), bit by bit, against the shifts that the commands
perform. -/

namespace Sys2Proof.Machine

/-! ## Bits of a word list -/

/-- Bit `p` of the value of a word list, and `fill` below and above it. -/
def listBit (ws : List Word) (fill : Bool) (p : Int) : Bool :=
  if 0 ≤ p ∧ p < 64 * ws.length then (ofWords ws).testBit p.toNat else fill

/-- The word all of whose bits are `b`. -/
def fillWord (b : Bool) : Word := if b then BitVec.allOnes 64 else 0#64

theorem getLsbD_fillWord (b : Bool) {i : Nat} (hi : i < 64) : (fillWord b).getLsbD i = b := by
  cases b with
  | true => exact (BitVec.getLsbD_allOnes).trans (decide_eq_true hi)
  | false => exact BitVec.getLsbD_zero

/-- Bit `i` of word `j` of a list is bit `64 * j + i` of its value. -/
theorem getLsbD_getD (ws : List Word) {j i : Nat} (hj : j < ws.length) (hi : i < 64) :
    (ws.getD j 0#64).getLsbD i = (ofWords ws).testBit (64 * j + i) := by
  rw [← BitVec.testBit_toNat, getD_toNat ws hj, Nat.testBit_mod_two_pow, Nat.testBit_div_two_pow, decide_eq_true hi,
    Bool.true_and, Nat.add_comm]

/-- `src(j)` has the bits from `64 * j` up. -/
theorem getLsbD_srcWord (ws : List Word) (fill : Bool) (j : Int) {i : Nat} (hi : i < 64) :
    (srcWord ws (fillWord fill) j).getLsbD i = listBit ws fill (64 * j + i) := by
  rw [srcWord, listBit]
  by_cases hj : 0 ≤ j ∧ j < ws.length
  · have hlt : j.toNat < ws.length := by omega
    rw [if_pos hj, if_pos (by omega), show (64 * j + i).toNat = 64 * j.toNat + i by omega, ← getLsbD_getD ws hlt hi,
      List.getD_eq_getElem _ _ hlt, List.getD_eq_getElem _ _ hlt]
  · rw [if_neg hj, if_neg (by omega), getLsbD_fillWord fill hi]

/-! ## One word of a shift -/

/-- A word shifted up by `b`, filled from the top of the word below it. -/
theorem getLsbD_ofNat_mul_or_div (hi lo : Word) {b i : Nat} (hb : b ≤ 64) (hlt : i < 64) :
    (BitVec.ofNat 64 (hi.toNat * 2 ^ b) ||| BitVec.ofNat 64 (lo.toNat / 2 ^ (64 - b))).getLsbD i =
      if b ≤ i then hi.getLsbD (i - b) else lo.getLsbD (64 - b + i) := by
  rw [BitVec.getLsbD_or, BitVec.getLsbD_ofNat, BitVec.getLsbD_ofNat, Nat.testBit_mul_two_pow, Nat.testBit_div_two_pow,
    BitVec.testBit_toNat, BitVec.testBit_toNat, decide_eq_true hlt, Bool.true_and, Bool.true_and]
  by_cases hbi : b ≤ i
  · rw [if_pos hbi, decide_eq_true hbi, Bool.true_and, BitVec.getLsbD_of_ge lo _ (by omega), Bool.or_false]
  · rw [if_neg hbi, decide_eq_false hbi, Bool.false_and, Bool.false_or, Nat.add_comm]

/-- Two neighbouring source words, the upper one shifted up by `b`, hold the bits from `64 * j - b` up. -/
theorem getLsbD_srcWord_pair (ws : List Word) (fill : Bool) (j : Int) {b i : Nat} (hb : b ≤ 64) (hi : i < 64) :
    (BitVec.ofNat 64 ((srcWord ws (fillWord fill) j).toNat * 2 ^ b) |||
      BitVec.ofNat 64 ((srcWord ws (fillWord fill) (j - 1)).toNat / 2 ^ (64 - b))).getLsbD i =
      listBit ws fill (64 * j - b + i) := by
  rw [getLsbD_ofNat_mul_or_div _ _ hb hi]
  split
  · rw [getLsbD_srcWord ws fill j (by omega)]
    congr 1
    omega
  · rw [getLsbD_srcWord ws fill (j - 1) (by omega)]
    congr 1
    omega

/-- Word `j` of the left shift: the loop body of R217. -/
def shlWord (ws : List Word) (k : Nat) (j : Int) : Word :=
  if k % 64 > 0 then
    BitVec.ofNat 64 ((srcWord ws 0#64 (j - (k / 64 : Nat))).toNat * 2 ^ (k % 64)) |||
      BitVec.ofNat 64 ((srcWord ws 0#64 (j - (k / 64 : Nat) - 1)).toNat / 2 ^ (64 - k % 64))
  else BitVec.ofNat 64 ((srcWord ws 0#64 (j - (k / 64 : Nat))).toNat * 2 ^ (k % 64))

/-- Word `j` of the right shift: the loop body of R218. -/
def shrWord (ws : List Word) (fill : Word) (k : Nat) (j : Int) : Word :=
  if k % 64 > 0 then
    BitVec.ofNat 64 ((srcWord ws fill (j + (k / 64 : Nat))).toNat / 2 ^ (k % 64)) |||
      BitVec.ofNat 64 ((srcWord ws fill (j + (k / 64 : Nat) + 1)).toNat * 2 ^ (64 - k % 64))
  else BitVec.ofNat 64 ((srcWord ws fill (j + (k / 64 : Nat))).toNat / 2 ^ (k % 64))

/-- Word `j` of the left shift holds the source bits from `64 * j - k` up. -/
theorem getLsbD_shlWord (ws : List Word) (k : Nat) (j : Int) {i : Nat} (hi : i < 64) :
    (shlWord ws k j).getLsbD i = listBit ws false (64 * j + i - k) := by
  rw [shlWord, show 0#64 = fillWord false from rfl]
  split
  · rw [getLsbD_srcWord_pair ws false _ (by omega) hi]
    congr 1
    omega
  · rw [show k % 64 = 0 by omega, pow_zero, Nat.mul_one, BitVec.ofNat_toNat, BitVec.setWidth_eq,
      getLsbD_srcWord ws false _ hi]
    congr 1
    omega

/-- Word `j` of the right shift holds the source bits from `64 * j + k` up: it is the upper of two source words shifted up by
what is left of 64, filled from the lower one. -/
theorem getLsbD_shrWord (ws : List Word) (fill : Bool) (k : Nat) (j : Int) {i : Nat} (hi : i < 64) :
    (shrWord ws (fillWord fill) k j).getLsbD i = listBit ws fill (64 * j + i + k) := by
  rw [shrWord]
  split
  · have hpair := getLsbD_srcWord_pair ws fill (j + (k / 64 : Nat) + 1) (b := 64 - k % 64) (by omega) hi
    rw [add_sub_cancel_right, show 64 - (64 - k % 64) = k % 64 by omega] at hpair
    rw [BitVec.or_comm, hpair]
    congr 1
    omega
  · rw [show k % 64 = 0 by omega, pow_zero, Nat.div_one, BitVec.ofNat_toNat, BitVec.setWidth_eq,
      getLsbD_srcWord ws fill _ hi]
    congr 1
    omega

/-! ## The shifts on word lists -/

/-- The model's loops run over the integers of a range of word indices. -/
theorem map_intRange (m : Nat) (f : Int → Word) :
    List.map f (do let j ← List.range m; pure (j : Int)) = (List.range m).map fun j : Nat => f j := by
  simp [Function.comp_def, ← List.map_eq_flatMap]

theorem shlWords_eq (ws : List Word) (k : Nat) : shlWords ws k = (List.range ws.length).map fun j : Nat => shlWord ws k j :=
  map_intRange ws.length (shlWord ws k)

theorem shrWords_eq (ws : List Word) (fill : Word) (k : Nat) :
    shrWords ws fill k = (List.range ws.length).map fun j : Nat => shrWord ws fill k j :=
  map_intRange ws.length (shrWord ws fill k)

/-! ## The datapaths on operands -/

/-- The bits of an operand are those of its words. -/
theorem listBit_operand {n : Width} (a : BitVec n.bits) (fill : Bool) (p : Int) :
    listBit (toWords n.words (uval a)) fill p = if 0 ≤ p ∧ p < n.bits then a.getLsbD p.toNat else fill := by
  rw [listBit, toWords_length, ofWords_operand, testBit_uval, Nat.cast_mul]
  rfl

/-- Bit `i` of an operand made word by word is bit `i % 64` of word `i / 64`. -/
theorem getLsbD_bits_ofWords (n : Width) (f : Nat → Word) {i : Nat} (hi : i < n.bits) :
    (bits n.bits (ofWords ((List.range n.words).map f))).getLsbD i = (f (i / 64)).getLsbD (i % 64) := by
  have hj : i / 64 < n.words := Nat.div_lt_of_lt_mul hi
  have hlen : ((List.range n.words).map f).length = n.words := by simp
  have hlt := ofWords_lt ((List.range n.words).map f)
  rw [hlen] at hlt
  have hword := getLsbD_getD ((List.range n.words).map f) (by rwa [hlen]) (Nat.mod_lt i (by decide : 0 < 64))
  rw [Nat.div_add_mod, List.getD_eq_getElem _ _ (by rwa [hlen]), List.getElem_map, List.getElem_range] at hword
  rw [hword, ← testBit_uval, uval_bits_of_lt hlt]

section
variable {n : Width} (a : BitVec n.bits) (k : Nat) {i : Nat} (hi : i < n.bits)
include hi

theorem getLsbD_shlDatapath : (shlDatapath n a k).getLsbD i = if k ≤ i then a.getLsbD (i - k) else false := by
  rw [shlDatapath, shlWords_eq, toWords_length, getLsbD_bits_ofWords n _ hi, getLsbD_shlWord _ k _ (Nat.mod_lt i (by decide)),
    listBit_operand]
  by_cases hk : k ≤ i
  · rw [if_pos hk, if_pos (by omega)]
    congr 1
    omega
  · rw [if_neg hk, if_neg (by omega)]

theorem getLsbD_shrDatapath (S : Bool) :
    (shrDatapath S n a k).getLsbD i = if i + k < n.bits then a.getLsbD (i + k) else S && topBit a := by
  rw [shrDatapath, ← fillWord, shrWords_eq, toWords_length, getLsbD_bits_ofWords n _ hi,
    getLsbD_shrWord _ _ k _ (Nat.mod_lt i (by decide)), listBit_operand]
  by_cases hk : i + k < n.bits
  · rw [if_pos hk, if_pos (by omega)]
    congr 1
    omega
  · rw [if_neg hk, if_neg (by omega)]

theorem getLsbD_shiftLeft : (shiftLeft a k).getLsbD i = if k ≤ i then a.getLsbD (i - k) else false := by
  rw [shiftLeft_eq, BitVec.getLsbD_shiftLeft, decide_eq_true hi, Bool.true_and]
  by_cases hk : k ≤ i
  · rw [if_pos hk, decide_eq_false (by omega), Bool.not_false, Bool.true_and]
  · rw [if_neg hk, decide_eq_true (by omega), Bool.not_true, Bool.false_and]

theorem getLsbD_shiftRight (S : Bool) :
    (shiftRight S a k).getLsbD i = if i + k < n.bits then a.getLsbD (i + k) else S && topBit a := by
  rw [shiftRight_eq, topBit_eq_msb, Nat.add_comm i k]
  cases S with
  | true => rw [if_pos rfl, BitVec.getLsbD_sshiftRight, decide_eq_false (by omega), Bool.not_false, Bool.true_and,
      Bool.true_and]
  | false =>
    rw [if_neg Bool.false_ne_true, BitVec.getLsbD_ushiftRight, Bool.false_and]
    split
    · rfl
    · next hk => exact BitVec.getLsbD_of_ge a _ (by omega)

end

/-- Settles O57: the datapaths move the bits as the commands' shifts do. That the amount is below `W` is not needed. -/
theorem wordShiftsAgree : Obligations.WordShiftsAgree := by
  refine fun S n a k _ => ⟨BitVec.eq_of_getLsbD_eq fun i hi => ?_, BitVec.eq_of_getLsbD_eq fun i hi => ?_⟩
  · rw [getLsbD_shlDatapath a k hi, getLsbD_shiftLeft a k hi]
  · rw [getLsbD_shrDatapath a k hi, getLsbD_shiftRight a k hi]

end Sys2Proof.Machine
end

section
/-! PROOFS. BSWAP (45_bitwise_shift.md R220), the byte swap by limbs and its involution (R221). -/

namespace Sys2Proof.Machine

open Sys2Proof.Spec

/-! ## The bytes of a number, reversed -/

theorem reverseBytes_succ (k v : Nat) : reverseBytes (k + 1) v = v % 256 * 256 ^ k + reverseBytes k (v / 256) := rfl

theorem reverseBytes_one (v : Nat) : reverseBytes 1 v = v % 256 := Nat.mul_one _

theorem reverseBytes_lt (k v : Nat) : reverseBytes k v < 256 ^ k := by
  induction k generalizing v with
  | zero => exact Nat.one_pos
  | succ k ih =>
    have hlow := ih (v / 256)
    have htop : v % 256 * 256 ^ k ≤ 255 * 256 ^ k := Nat.mul_le_mul_right _ (by omega)
    rw [reverseBytes_succ, pow_succ']
    omega

/-- Byte `i` of the reversal is byte `k - 1 - i` of the number. -/
theorem reverseBytes_byte {k i : Nat} (hi : i < k) (v : Nat) :
    reverseBytes k v / 256 ^ i % 256 = v / 256 ^ (k - 1 - i) % 256 := by
  induction k generalizing v with
  | zero => omega
  | succ k ih =>
    rw [reverseBytes_succ, Nat.add_sub_cancel]
    obtain rfl | hlt := Nat.eq_or_lt_of_le (Nat.lt_succ_iff.mp hi)
    · rw [Nat.mul_comm, Nat.mul_add_div (by positivity), Nat.div_eq_of_lt (reverseBytes_lt i _), Nat.add_zero,
        Nat.mod_mod, Nat.sub_self, pow_zero, Nat.div_one]
    · have htop : v % 256 * 256 ^ k = 256 ^ i * (256 * (256 ^ (k - 1 - i) * (v % 256))) := by
        rw [← Nat.mul_assoc, ← Nat.mul_assoc, ← pow_succ, ← pow_add, Nat.mul_comm]
        congr 2
        omega
      rw [htop, Nat.mul_add_div (by positivity), Nat.mul_add_mod, ih hlt, Nat.div_div_eq_div_mul, ← pow_succ',
        show k - 1 - i + 1 = k - i by omega]

/-- Only the `k` low bytes count. -/
theorem reverseBytes_mod (k v : Nat) : reverseBytes k (v % 256 ^ k) = reverseBytes k v := by
  induction k generalizing v with
  | zero => rfl
  | succ k ih =>
    rw [reverseBytes_succ, reverseBytes_succ, Nat.mod_mod_of_dvd v (dvd_pow_self 256 k.succ_ne_zero), pow_succ',
      Nat.mod_mul_right_div_self, ih]

/-- A cut at byte `m`: the low `m` bytes, reversed, stand above the others, reversed. -/
theorem reverseBytes_add (m k v : Nat) :
    reverseBytes (m + k) v = reverseBytes m v * 256 ^ k + reverseBytes k (v / 256 ^ m) := by
  induction m generalizing v with
  | zero => simp [reverseBytes]
  | succ m ih =>
    rw [Nat.succ_add, reverseBytes_succ, ih, reverseBytes_succ, Nat.div_div_eq_div_mul, ← pow_succ', pow_add]
    ring

/-- Reversing twice gives the `k` low bytes back: the lowest byte goes to the top and, cut off there, comes back last. -/
theorem reverseBytes_reverseBytes (k v : Nat) : reverseBytes k (reverseBytes k v) = v % 256 ^ k := by
  induction k generalizing v with
  | zero => exact (Nat.mod_one v).symm
  | succ k ih =>
    have hlt := reverseBytes_lt k (v / 256)
    have hlow : (v % 256 * 256 ^ k + reverseBytes k (v / 256)) % 256 ^ k = reverseBytes k (v / 256) :=
      Nat.mul_add_mod_of_lt hlt
    have htop : (v % 256 * 256 ^ k + reverseBytes k (v / 256)) / 256 ^ k = v % 256 := by
      rw [Nat.mul_comm, Nat.mul_add_div (by positivity), Nat.div_eq_of_lt hlt, Nat.add_zero]
    rw [reverseBytes_add, reverseBytes_succ k v, ← reverseBytes_mod k, hlow, htop, ih, pow_one,
      reverseBytes_one, Nat.mod_mod, pow_succ' 256 k, Nat.mod_mul, Nat.add_comm, Nat.mul_comm]

/-! ## BSWAP -/

theorem two_pow_eq_bytes (k : Nat) : 2 ^ (64 * k) = 256 ^ (8 * k) := by
  rw [show 64 * k = 8 * (8 * k) by omega, pow_mul]
  rfl

/-- The byte swap of `k` words reverses their `8 * k` bytes. -/
theorem uval_byteSwap {k : Nat} (v : BitVec (64 * k)) : uval (byteSwap v) = reverseBytes (8 * k) (uval v) := by
  rw [byteSwap, show 64 * k / 8 = 8 * k by omega, uval_bits_of_lt]
  rw [two_pow_eq_bytes]
  exact reverseBytes_lt _ _

/-- Settles O41: BSWAP completes with the bytes reversed. -/
theorem bswapReversesTheBytes : Obligations.BswapReversesTheBytes := by
  refine ⟨selectsR1_of_row (by decide) rfl, fun S rd rs1 s => ?_⟩
  obtain ⟨t, ht, huval, _, hov, hframe⟩ := complete_onlyWrites s rd (byteSwap (s.reg rs1)) noOverflow
  refine ⟨t, ht, fun i hi => ?_, hov, hframe⟩
  rw [huval, uval_byteSwap]
  exact reverseBytes_byte hi _

/-- Settles O59: the cut of the reversal is at the limbs. -/
theorem byteSwapByLimbsAndInvolution : Obligations.ByteSwapByLimbsAndInvolution := by
  refine fun n v => ⟨?_, uval_inj ?_⟩
  · rw [uval_byteSwap, uval_byteSwap, uval_byteSwap, uval_lowLimb, uval_highLimb, two_pow_eq_bytes, two_pow_eq_bytes,
      reverseBytes_mod, ← reverseBytes_add, ← Nat.mul_add, Nat.add_comm, highWords_add_lowWords]
  · rw [uval_byteSwap, uval_byteSwap, reverseBytes_reverseBytes, ← two_pow_eq_bytes, Nat.mod_eq_of_lt (uval_lt v)]

end Sys2Proof.Machine
end

section
/-! PROOFS. CMP, ISZ, ISNEG and ISODD (46_compare.md R240 to R243) and the comparison over the words (R244) against the sign of
the difference. -/

namespace Sys2Proof.Machine

open Sys2Proof.Spec

/-! ## The comparison tree (R244) -/

/-- The value of a word list with the most significant word first, that word read with `S`. -/
def topDownValue (S : Bool) : List Word → Int
  | [] => 0
  | a :: as => val S a * 2 ^ (64 * as.length) + topDownValue false as

theorem ofWords_reverse_cons (a : Word) (as : List Word) :
    ofWords (a :: as).reverse = ofWords as.reverse + 2 ^ (64 * as.length) * a.toNat := by
  rw [List.reverse_cons, ofWords_concat, List.length_reverse]

/-- Read unsigned, it is the value of the list turned round. -/
theorem topDownValue_false (ws : List Word) : topDownValue false ws = ofWords ws.reverse := by
  induction ws with
  | nil => rfl
  | cons a as ih =>
    rw [topDownValue, ih, val_false, ofWords_reverse_cons]
    push_cast
    ring

theorem topDownValue_false_range (ws : List Word) :
    0 ≤ topDownValue false ws ∧ topDownValue false ws < 2 ^ (64 * ws.length) := by
  rw [topDownValue_false, ← List.length_reverse]
  exact ⟨Int.natCast_nonneg _, by exact_mod_cast ofWords_lt ws.reverse⟩

/-- A difference in the leading digit decides, whatever the digits below it are. -/
theorem sign_sub_of_digits {β u v x y : Int} (hx : 0 ≤ x ∧ x < β) (hy : 0 ≤ y ∧ y < β) :
    (u * β + x - (v * β + y)).sign = if u < v then -1 else if v < u then 1 else (x - y).sign := by
  obtain ⟨hx0, hxβ⟩ := hx
  obtain ⟨hy0, hyβ⟩ := hy
  split_ifs with hlt hgt
  · exact Int.sign_eq_neg_one_of_neg (by nlinarith)
  · exact Int.sign_eq_one_of_pos (by nlinarith)
  · rw [le_antisymm (not_lt.mp hgt) (not_lt.mp hlt), add_sub_add_left_eq_sub]

/-- The comparison takes the sign of the difference: the first pair of words that differ decides. -/
theorem cmpWords_eq_sign {as bs : List Word} (h : as.length = bs.length) (S : Bool) :
    cmpWords S as bs = (topDownValue S as - topDownValue S bs).sign := by
  induction as generalizing bs S with
  | nil =>
    obtain rfl := List.length_eq_zero_iff.mp h.symm
    rfl
  | cons a as ih =>
    obtain ⟨b, bs, rfl⟩ := List.exists_cons_of_length_eq_add_one h.symm
    have hlen : as.length = bs.length := Nat.succ.inj h
    have hbs := topDownValue_false_range bs
    rw [cmpWords, ih hlen, topDownValue, topDownValue, ← hlen,
      sign_sub_of_digits (topDownValue_false_range as) (by rwa [hlen])]

/-- The sign bit of the most significant word is that of the whole list. -/
theorem topBit_eq_testBit_reverse_cons (a : Word) (as : List Word) :
    topBit a = (ofWords (a :: as).reverse).testBit (64 * as.length + 63) := by
  have hget : (a :: as).reverse.getD as.length 0#64 = a := by simp
  rw [← getLsbD_getD _ (by simp) (by decide), hget, topBit]

/-- The sign bit of an operand is that of its most significant word, so it counts as `S` says when that word is read with
`S`. -/
theorem topDownValue_operand (S : Bool) {n : Width} (v : BitVec n.bits) :
    topDownValue S (toWords n.words (uval v)).reverse = val S v := by
  have hlength : (toWords n.words (uval v)).reverse.length = n.words := by simp
  obtain ⟨a, as, hws⟩ := List.exists_cons_of_length_pos (hlength ▸ words_pos n)
  have hbits : n.bits = 64 * as.length + 64 := by
    rw [hws, List.length_cons] at hlength
    rw [Width.bits, ← hlength, Nat.mul_succ]
  have hvalue : ofWords (a :: as).reverse = uval v := by rw [← hws, List.reverse_reverse, ofWords_operand]
  have htop : topBit a = topBit v := by
    rw [topBit_eq_testBit_reverse_cons, hvalue, testBit_uval, topBit, show 64 * as.length + 63 = n.bits - 1 by omega]
  have hpow : (2 : Int) ^ n.bits = 2 ^ (64 * as.length) * 2 ^ 64 := by rw [hbits, pow_add]
  have hsum : (uval v : Int) = ofWords as.reverse + 2 ^ (64 * as.length) * uval a := by
    exact_mod_cast hvalue.symm.trans (ofWords_reverse_cons a as)
  rw [hws, topDownValue, topDownValue_false, val_eq_uval_sub, val_eq_uval_sub, htop, hpow, hsum]
  ring

/-- Settles O58: the values of the operands' word lists, from the top down, are the readings. -/
theorem comparisonTreeAgrees : Obligations.ComparisonTreeAgrees := by
  intro S n a b
  rw [cmpDatapath, cmpWords_eq_sign (by simp), topDownValue_operand, topDownValue_operand]

/-! ## CMP -/

/-- A sign fits in two bits and more. -/
theorem sval_bits_sign {w : Nat} (hw : 1 < w) (m : Int) : sval (bits w m.sign) = m.sign := by
  have hpow : (1 : Int) < 2 ^ (w - 1) := one_lt_pow₀ (by decide) (by omega)
  have hsign := Int.sign_trichotomy m
  exact val_bits_of_fits (S := true) (by omega) ((fits_iff true w _).mpr ⟨by omega, by omega⟩)

/-- Settles O42: CMP completes with the sign of the difference of the readings. -/
theorem cmpOrdersTheOperands : Obligations.CmpOrdersTheOperands := by
  refine ⟨selectsR2_of_row (by decide) rfl, fun S rd rs1 rs2 s => ?_⟩
  obtain ⟨t, ht, _, hval, hov, hframe⟩ := complete_onlyWrites s rd (bits s.W (s.val S rs1 - s.val S rs2).sign) noOverflow
  have hsign : t.sval rd = (s.val S rs1 - s.val S rs2).sign :=
    (hval true).trans (sval_bits_sign ((by decide : 1 < 16).trans_le (sixteen_le_W s)) _)
  refine ⟨t, ht, fun hlt => ?_, fun heq => ?_, fun hgt => ?_, hov, hframe⟩
  · rw [hsign, Int.sign_eq_neg_one_of_neg (Int.sub_neg_of_lt hlt)]
  · have hval : s.val S rs1 = s.val S rs2 := congrArg (Machine.val S) (uval_inj heq)
    rw [hsign, hval, sub_self, Int.sign_zero]
  · rw [hsign, Int.sign_eq_one_of_pos (Int.sub_pos_of_lt hgt)]

/-! ## ISZ, ISNEG and ISODD -/

/-- A test leaves its answer as 0 or 1 and clears `OV`, and nothing else changes. -/
theorem complete_testResult (s : State) (rd : Reg) (b : Bool) :
    ∃ t, complete s rd (testResult s.W b) noOverflow = .next t ∧ t.uval rd = b.toNat ∧ t.ov = false ∧ OnlyWrites [rd] s t := by
  obtain ⟨t, ht, huval, _, hov, hframe⟩ := complete_onlyWrites s rd (testResult s.W b) noOverflow
  have hlt : b.toNat < 2 ^ s.W := b.toNat_lt.trans_le (Nat.le_pow (W_pos s))
  exact ⟨t, ht, huval.trans (uval_bits_of_lt hlt), hov, hframe⟩

theorem boolToNat_eq_ite {b : Bool} {p : Prop} [Decidable p] (h : b = true ↔ p) : b.toNat = if p then 1 else 0 :=
  (cond_eq_ite b 1 0).trans (if_congr h rfl rfl)

theorem reg_eq_zero_iff (s : State) (r : Reg) : s.reg r = 0#s.W ↔ s.uval r = 0 := by
  rw [← BitVec.toNat_inj, BitVec.toNat_zero]
  rfl

/-- The sign bit is set exactly when the signed reading is negative. -/
theorem topBit_iff_sval_neg {w : Nat} (v : BitVec w) : topBit v = true ↔ sval v < 0 := by
  rw [topBit_eq_msb, BitVec.msb_eq_toInt, sval_eq_toInt, decide_eq_true_iff]

/-- Settles O43: each test completes with its answer. -/
theorem testsWriteZeroOrOne : Obligations.TestsWriteZeroOrOne := by
  refine ⟨⟨selectsR1_of_row (by decide) rfl, fun S rd rs1 s => ?_⟩, ⟨selectsR1_of_row (by decide) rfl, fun S rd rs1 s => ?_⟩,
    ⟨selectsR1_of_row (by decide) rfl, fun S rd rs1 s => ?_⟩⟩
  · obtain ⟨t, ht, huval, hrest⟩ := complete_testResult s rd (decide (s.reg rs1 = 0#s.W))
    exact ⟨t, ht, huval.trans (boolToNat_eq_ite (decide_eq_true_iff.trans (reg_eq_zero_iff s rs1))), hrest⟩
  · obtain ⟨t, ht, huval, hrest⟩ := complete_testResult s rd (S && topBit (s.reg rs1))
    have hneg : (S && topBit (s.reg rs1)) = true ↔ S = true ∧ s.sval rs1 < 0 := by
      rw [Bool.and_eq_true, topBit_iff_sval_neg]
      rfl
    exact ⟨t, ht, huval.trans (boolToNat_eq_ite hneg), hrest⟩
  · obtain ⟨t, ht, huval, hrest⟩ := complete_testResult s rd ((s.reg rs1).getLsbD 0)
    refine ⟨t, ht, ?_, hrest⟩
    rw [huval, ← State.testBit_uval, Nat.toNat_testBit, pow_zero, Nat.div_one]

end Sys2Proof.Machine
end

section
/-! PROOFS. Error capture, the pending error, and the ways out of it (60_exceptions.md R262, R266, R268). -/

namespace Sys2Proof.Machine

open Sys2Proof.Spec

/-! ## A CMD write, by `ERR` and by what its word decodes to -/

theorem step_of_cmd_pending {s : State} {data : Word} {rest : List HostInput} (hq : NextWrite s 0x020#12 data rest)
    (herr : s.err ≠ 0#4) : step s = .next { s with queue := rest } :=
  (step_of_cmd hq).trans (if_pos herr)

theorem step_of_cmd_error {s : State} {data : Word} {rest : List HostInput} {e : CommandError}
    (hq : NextWrite s 0x020#12 data rest) (herr : s.err = 0#4) (hd : decode (low32 data) = .error e) :
    step s = .next (captureError e (low32 data) { s with queue := rest }) :=
  (step_of_cmd hq).trans (runCommand_of_error herr hd)

theorem step_of_cmd_ok {s : State} {data : Word} {rest : List HostInput} {i : Instr}
    (hq : NextWrite s 0x020#12 data rest) (herr : s.err = 0#4) (hd : decode (low32 data) = .ok i) :
    step s = exec i { s with queue := rest } :=
  (step_of_cmd hq).trans (runCommand_of_ok herr hd)

theorem step_of_status {s : State} {data : Word} {rest : List HostInput} (hq : NextWrite s 0x010#12 data rest) :
    step s = .next (clearStatus { s with queue := rest }) :=
  step_of_write (p := .status) hq (by decide) rfl

/-! ## The ways out of a pending error -/

/-- While an error is pending no step captures or runs a command, so it leaves the error registers alone, clears them by a
STATUS write, or is the reset input. -/
theorem step_of_pending_cases {s t : State} (h : step s = .next t) (herr : s.err ≠ 0#4) :
    (t.err = s.err ∧ t.errcmd = s.errcmd) ∨
    (∃ data rest, NextWrite s 0x010#12 data rest ∧ t.err = 0#4 ∧ t.ov = false ∧ t.errcmd = s.errcmd) ∨
    (∃ dropped rest, s.queue = .reset dropped :: rest ∧ t.err = 0#4 ∧ t.ov = false) := by
  obtain ⟨_, _, hkept⟩ | ⟨data, rest, hq, rfl⟩ | ⟨_, _, _, _, h0, _⟩ | ⟨_, _, _, _, h0, _⟩ | ⟨_, _, _, _, _, _, rfl⟩ |
    ⟨dropped, rest, hq, rfl⟩ := step_engine_cases h
  · exact .inl hkept
  · exact .inr (.inl ⟨data, rest, hq, rfl, rfl, rfl⟩)
  · exact absurd h0 herr
  · exact absurd h0 herr
  · exact .inl ⟨rfl, rfl⟩
  · exact .inr (.inr ⟨dropped, rest, hq, rfl, rfl⟩)

/-- Settles O11: a pending error shuts out the capture and the commands, and `clearStatus` leaves `ERR` at 0, where a CMD
write is decoded. -/
theorem onlyStatusWriteOrResetClearsAnError : Obligations.OnlyStatusWriteOrResetClearsAnError := by
  refine ⟨fun _ _ => step_of_pending_cases, fun s ignored data rest hq => ?_⟩
  refine ⟨_, step_of_status hq, fun i hd => step_of_cmd_ok rfl rfl hd, fun e hd => ?_⟩
  exact ⟨_, step_of_cmd_error rfl rfl hd, rfl, rfl⟩

/-! ## The capture -/

/-- Settles O8: the step is `captureError`, and `errorCode` gives the three codes of R261. -/
theorem errorCaptureWritesOnlyErrAndErrcmd : Obligations.ErrorCaptureWritesOnlyErrAndErrcmd := by
  intro s data rest e hq herr hd
  refine ⟨_, step_of_cmd_error hq herr hd, rfl, rfl, ⟨rfl, fun _ => rfl⟩, rfl, ?_⟩
  exact ⟨congrArg errorCode, congrArg errorCode, congrArg errorCode⟩

/-! ## Accesses while an error is pending -/

/-- Settles O9: `ERR` is looked at by a CMD write only; a word access goes on as at any other time. -/
theorem pendingErrorDiscardsCommands : Obligations.PendingErrorDiscardsCommands := by
  refine ⟨fun s data rest hq herr => ?_, fun s r j data rest hj _ hq => ?_, fun s r j hj _ => readReturns_wordNat s r hj⟩
  · exact ⟨_, step_of_cmd_pending hq herr, sameEngine_withHostLists s rest s.replies, rfl⟩
  · have hword := wordNat_writeWord_same { s with queue := rest } r data hj hj
    exact ⟨_, step_of_word_write hj hq, hword.trans (if_pos rfl), rfl, rfl, rfl⟩

end Sys2Proof.Machine
end

section
/-! PROOFS. The reset input (10_state.md R38; 70_reset_and_hazards.md R290). -/

namespace Sys2Proof.Machine

/-- Settles O17: the step is `resetEngine` on the state without the reset entry, whatever the entry dropped, and
`resetEngine` takes every piece of the engine from `State.resetAt`. -/
theorem resetInputZeroesEveryPiece : Obligations.ResetInputZeroesEveryPiece := by
  refine ⟨fun s dropped rest hq => ?_, fun n => ?_⟩
  · exact ⟨_, step_of_reset hq, resetEngine_n _, fun r => resetEngine_uval _ r, resetEngine_ov _, resetEngine_err _,
      resetEngine_errcmd _, resetEngine_queue _⟩
  · exact ⟨resetAt_n n, fun r => resetAt_uval r n, resetAt_ov n, resetAt_err n, resetAt_errcmd n⟩

end Sys2Proof.Machine
end
